-- ==== Sys2Proof/Word.lean ====
section
/-! DEFINITION. The widths the PSIM core works with (spec/00_scope.md R7, R10, R11). -/

namespace Sys2Proof

/-- One byte of either memory. -/
abbrev Byte := BitVec 8

/-- A 32-bit pattern with no sign of its own: a register, a data word, an address, an instruction word
(R7, R11). Bit 0 is the least significant bit (R10). -/
abbrev Word := BitVec 32

/-- A 5-bit register number, `$0` to `$31` (spec/30_encoding.md R76). -/
abbrev RegNum := BitVec 5

end Sys2Proof
end

