-- ==== Sys2Proof/Config.lean ====
section
/-! DEFINITION. What a launch of the PSIM core fixes (spec/00_scope.md R8). -/

namespace Sys2Proof

/-- `HAZ`, the bubble counts of the hazard unit (spec/41_hazard_unit.md R111, R113), with the source's
own counts as defaults (D28). They are 8-bit counts, the width of the stall counter they are stored in
(R7, R35): log entry 10. -/
structure HazardCounts where
  /-- The producer is in EX/MEM. -/
  exMem : BitVec 8 := 2#8
  /-- The producer is in MEM/WB. -/
  memWb : BitVec 8 := 1#8
  /-- The producer is a load in ID/EX. -/
  load : BitVec 8 := 2#8
  /-- The word in IF/ID is a `beq` or a `j`. -/
  ctrl : BitVec 8 := 1#8
  deriving DecidableEq, Repr

/-- The parameters a launch fixes for the whole run (R8). The spec does not count them as state (R20);
the model carries them in State, where no step changes them, so that its theorems cover every launch:
log entry 6. -/
structure LaunchParams where
  /-- `IMEM_LEN`, the length of the instruction memory in bytes. -/
  imemLen : Nat := 0
  /-- `DMEM_SIZE`, the size of the data memory in bytes (D27). -/
  dmemSize : Nat := 1024
  /-- `R0_HARDWIRED`, the policy for register 0 (D6). -/
  r0Hardwired : Bool := false
  /-- `HAZ`. -/
  haz : HazardCounts := {}
  deriving DecidableEq, Repr

end Sys2Proof
end

