-- ==== Sys2Proof/Machine/State.lean ====
section
/-! DEFINITION. The state of the PSIM core (spec/10_state.md R20 to R44), its fault records, and the
reasons a step can stop. -/

namespace Sys2Proof.Machine

/-- A byte-addressed memory as data: address and byte, addresses strictly rising, no listed byte 0.
An unlisted address reads as 0 (data memory beyond the seed is zero-filled: R44, R49). `Memory.wf` in
Machine/Ops.lean says the form. -/
abbrev Memory := List Host.Cell

/-- The 32 general registers of 32 bits (R21). -/
abbrev Registers := Vector Word 32

/-- A control-signal bundle, nine fields (R29, R94). -/
structure Control where
  /-- The destination is `rd` (true) or `rt` (false). -/
  regDst : Bool
  /-- The ALU's second operand is the immediate (true) or `rt_val` (false). -/
  aluSrc : Bool
  branch : Bool
  jump : Bool
  memRead : Bool
  memWrite : Bool
  regWrite : Bool
  /-- WB writes the loaded word (true) or the ALU result (false). -/
  memToReg : Bool
  aluOp : BitVec 2
  deriving DecidableEq, Repr

/-- The IF/ID latch (R30). -/
structure IfId where
  /-- The fetched word, or 0 for a bubble. -/
  inst : Word
  /-- The address of the next sequential instruction. -/
  pc : Word
  deriving DecidableEq, Repr

/-- The ID/EX latch (R31). -/
structure IdEx where
  pc : Word
  ctrl : Control
  rsVal : Word
  rtVal : Word
  rt : RegNum
  rd : RegNum
  imm : Word
  addr : BitVec 26
  deriving DecidableEq, Repr

/-- The EX/MEM latch (R32). `zeroFlag` is the core's only flag (R27). -/
structure ExMem where
  branch : Bool
  jump : Bool
  memRead : Bool
  memWrite : Bool
  regWrite : Bool
  memToReg : Bool
  zeroFlag : Bool
  aluResult : Word
  branchAddr : Word
  jumpAddr : Word
  storeVal : Word
  reg : RegNum
  deriving DecidableEq, Repr

/-- The MEM/WB latch (R33). -/
structure MemWb where
  regWrite : Bool
  memToReg : Bool
  readData : Word
  aluResult : Word
  reg : RegNum
  deriving DecidableEq, Repr

/-- The four latch groups as one snapshot `L` (R20, R34). -/
structure Latches where
  ifId : IfId
  idEx : IdEx
  exMem : ExMem
  memWb : MemWb
  deriving DecidableEq, Repr

/-- The seven operation counters, unbounded naturals (R39, D21). -/
structure OpCounters where
  add : Nat
  sub : Nat
  and : Nat
  or : Nat
  slt : Nat
  memRead : Nat
  memWrite : Nat
  deriving DecidableEq, Repr

/-- The record of a fatal error (R40, spec/60_exceptions.md R200 to R203). Taking it is a NEXT state: the
cycle commits nothing, the record goes into `State.fault` and `running` is cleared (R152). -/
inductive FaultRecord where
  /-- The ID stage found an undecodable word (R201): its address and the word. -/
  | decodeError (pc word : Word)
  /-- The MEM stage of a `lw` or `sw` found its address outside data memory (R202). -/
  | dataOutOfBounds (addr : Word)
  /-- The MEM stage of a `lw` or `sw` found its address not a multiple of 4 (R203). -/
  | misalignedData (addr : Word)
  deriving DecidableEq, Repr

/-- Why a step has no next state at all. -/
inductive Fault where
  /-- The IF stage would fetch from an address that is no multiple of 4, or of which only a part of
  the word lies inside instruction memory. Raised by the IF stage of any cycle that fetches. The spec
  says that it cannot occur and defines no outcome (spec/20_memory.md R48, D29), and
  `State.Inv` rules it out. Safe: the model stops where the spec is silent (log entry 5). -/
  | undefinedFetch (addr : Word)
  deriving DecidableEq, Repr

/-- Which buffer of a launch could not be supplied (R233). -/
inductive BufferName where
  | imem | dseed
  deriving DecidableEq, Repr

/-- Why something is turned away before it runs. -/
inductive Refusal where
  /-- The instruction has no meaning in this model. Raised by a refused arm of `exec`; no arm is
  refused, so nothing raises it. Safe. -/
  | notModelled (mnemonic : String)
  /-- Raised by `launch`: `IMEM_LEN` is not a multiple of 4 (R233, D20). Safe: the spec's refusal. -/
  | imemLengthNotWords (len : Nat)
  /-- Raised by `launch`: the seed is longer than the data memory (R233). Safe: the spec's refusal. -/
  | seedTooLong (seedLen dmemSize : Nat)
  /-- Raised by `launch`: an input buffer cannot be supplied (R233). Safe: the spec's refusal. -/
  | missingInput (buffer : BufferName)
  deriving DecidableEq, Repr

/-- The whole state (R20), with the launch's parameters beside it (log entry 6). -/
structure State where
  /-- What the launch fixed (R8); no step changes it. -/
  params : LaunchParams
  /-- The address of the next instruction to fetch (R25). -/
  pc : Word
  /-- The register file (R21). -/
  regs : Registers
  /-- The instruction memory, `params.imemLen` bytes (R46). -/
  imem : Memory
  /-- The data memory, `params.dmemSize` bytes (R49). -/
  dmem : Memory
  /-- The pending stall, an unsigned 8-bit count (R7, R35). -/
  bubblesRemaining : BitVec 8
  /-- False once the run has ended, by halt or by fault (R36). -/
  running : Bool
  /-- Completed cycles (R37). -/
  cycleCount : Nat
  /-- Fetches less cancellations (R38). -/
  instructionCount : Nat
  /-- The operation counters (R39). -/
  ops : OpCounters
  /-- The latch snapshot the next cycle reads (R34). -/
  latches : Latches
  /-- The run's fatal error, if there was one (R40). -/
  fault : Option FaultRecord
  deriving DecidableEq, Repr

/-- The nop bundle: every one-bit field false, `alu_op` = 10 (spec/40_control_alu.md R92). -/
def Control.nopRow : Control :=
  { regDst := false, aluSrc := false, branch := false, jump := false, memRead := false,
    memWrite := false, regWrite := false, memToReg := false, aluOp := 0b10#2 }

/-- The latches at reset (R44, D5). -/
def Latches.reset : Latches :=
  { ifId := { inst := 0#32, pc := 0#32 }
    idEx := { pc := 0#32, ctrl := Control.nopRow, rsVal := 0#32, rtVal := 0#32, rt := 0#5, rd := 0#5,
              imm := 0#32, addr := 0#26 }
    exMem := { branch := false, jump := false, memRead := false, memWrite := false,
               regWrite := false, memToReg := false, zeroFlag := false, aluResult := 0#32,
               branchAddr := 0#32, jumpAddr := 0#32, storeVal := 0#32, reg := 0#5 }
    memWb := { regWrite := false, memToReg := false, readData := 0#32, aluResult := 0#32,
               reg := 0#5 } }

/-- Every operation counter 0 (R44). -/
def OpCounters.zero : OpCounters :=
  { add := 0, sub := 0, and := 0, or := 0, slt := 0, memRead := 0, memWrite := 0 }

/-- The default `INIT_REGS`: 32 zero words (R8, D4). -/
def Registers.zero : Registers := Vector.replicate 32 0#32

/-- The machine right after reset (R44, R230) of the launch with every default and an empty
instruction memory (log entry 7). `running` is false, since the halt condition already holds when
`IMEM_LEN` = 0. -/
def State.reset : State :=
  { params := {}
    pc := 0#32
    regs := Registers.zero
    imem := []
    dmem := []
    bubblesRemaining := 0#8
    running := false
    cycleCount := 0
    instructionCount := 0
    ops := OpCounters.zero
    latches := Latches.reset
    fault := none }

end Sys2Proof.Machine
end

