-- ==== Sys2Proof/Machine/Flags.lean ====
section
/-! DEFINITION. The core's only flag (spec/10_state.md R27, R28). -/

namespace Sys2Proof.Machine

/-- The zero flag of an ALU result (spec/40_control_alu.md R102). -/
def zeroFlag (result : Word) : Bool := result == 0#32

end Sys2Proof.Machine
end

