-- ==== Sys2Proof/Syntax.lean ====
section
/-! DEFINITION. The ten instructions (spec/00_scope.md R2, spec/30_encoding.md R67 to R71) and the
assembler's statements (R79 to R83). -/

namespace Sys2Proof

/-- One constructor for each row of the opcode table (R70). The R-format constructors keep the `shamt`
bits: they take no part in decoding or execution (R72), but the ID/EX latch holds all 32 bits' worth of
fields of the word (R145), so the model must not forget them (log entry 11). -/
inductive Instr where
  /-- `add $rd, $rs, $rt` (R161). -/
  | add (rd rs rt : RegNum) (shamt : BitVec 5)
  /-- `sub $rd, $rs, $rt` (R162). -/
  | sub (rd rs rt : RegNum) (shamt : BitVec 5)
  /-- `and $rd, $rs, $rt` (R163). -/
  | and (rd rs rt : RegNum) (shamt : BitVec 5)
  /-- `or $rd, $rs, $rt` (R164). -/
  | or (rd rs rt : RegNum) (shamt : BitVec 5)
  /-- `slt $rd, $rs, $rt`, unsigned (R165). -/
  | slt (rd rs rt : RegNum) (shamt : BitVec 5)
  /-- `lw $rt, imm($rs)` (R171). -/
  | lw (rt rs : RegNum) (imm : BitVec 16)
  /-- `sw $rt, imm($rs)` (R172). -/
  | sw (rt rs : RegNum) (imm : BitVec 16)
  /-- `beq $rs, $rt, imm` (R180). -/
  | beq (rs rt : RegNum) (imm : BitVec 16)
  /-- `j n` (R181). -/
  | j (target : BitVec 26)
  /-- `nop` (R190). -/
  | nop
  deriving DecidableEq, Repr

/-- The five R-format mnemonics, as an assembler statement names them. -/
inductive AluMnemonic where
  | add | sub | and | or | slt
  deriving DecidableEq, Repr

/-- The two load and store mnemonics. -/
inductive MemMnemonic where
  | lw | sw
  deriving DecidableEq, Repr

/-- An assembler statement with its operands as written, before any range check (R79 to R83). A
label operand is already resolved to the address it stands for. -/
inductive SourceInstr where
  /-- `op $rd, $rs, $rt` (R80). -/
  | alu (op : AluMnemonic) (rd rs rt : Nat)
  /-- `op $rt, imm($rs)` (R81). -/
  | mem (op : MemMnemonic) (rt : Nat) (imm : Int) (rs : Nat)
  /-- `beq $rs, $rt, imm` with the encoded word offset (R82). -/
  | beq (rs rt : Nat) (imm : Int)
  /-- `beq $rs, $rt, L` with a label at the given address (R82). -/
  | beqTo (rs rt : Nat) (label : Word)
  /-- `j n` with the encoded target field (R82). -/
  | j (n : Int)
  /-- `j L` with a label at the given address (R82). -/
  | jTo (label : Word)
  /-- `nop` (R83). -/
  | nop
  deriving DecidableEq, Repr

end Sys2Proof
end

