-- ==== Sys2Proof/WellFormed.lean ====
section
/-! DEFINITION. The range checks an assembler makes (spec/30_encoding.md R79 to R82).

A term of `Instr` needs no check: its fields have exactly the widths of the encoding, no operand value
is illegal and no bit is reserved (R73, R76), so every term is an instruction. What can be ill formed is
an assembler statement, whose operands are unbounded numbers: "An assembler refuses any operand out of
range" (R82). -/

namespace Sys2Proof

/-- A register number is 0 to 31 (R79). -/
def regInRange (n : Nat) : Bool := n < 32

/-- A 16-bit signed immediate (R81, R82). -/
def immInRange (i : Int) : Bool := -32768 ≤ i && i ≤ 32767

/-- A 26-bit unsigned target field (R82). -/
def targetInRange (n : Int) : Bool := 0 ≤ n && n < 67108864

/-- The byte distance from the instruction after a `beq` at `a` to a label at `t` (R82), on unbounded
integers (log entry 14). -/
def branchDistance (a t : Word) : Int := (t.toNat : Int) - ((a.toNat : Int) + 4)

/-- A label a `beq` at `a` can reach: a whole number of words, in range (R82). -/
def branchReaches (a t : Word) : Bool :=
  branchDistance a t % 4 = 0 && immInRange (branchDistance a t / 4)

/-- A label a `j` at `a` can reach: `t[31:28] = (a + 4)[31:28]` and `t mod 4 = 0` (R82). -/
def jumpReaches (a t : Word) : Bool :=
  t.extractLsb' 28 4 = (a + 4#32).extractLsb' 28 4 && t.toNat % 4 = 0

/-- Every operand of the statement, assembled at address `a`, is in range (R79 to R82). -/
def SourceInstr.wellFormed (a : Word) : SourceInstr → Bool
  | .alu _ rd rs rt => regInRange rd && regInRange rs && regInRange rt
  | .mem _ rt imm rs => regInRange rt && immInRange imm && regInRange rs
  | .beq rs rt imm => regInRange rs && regInRange rt && immInRange imm
  | .beqTo rs rt label => regInRange rs && regInRange rt && branchReaches a label
  | .j n => targetInRange n
  | .jTo label => jumpReaches a label
  | .nop => true

end Sys2Proof
end

