-- ==== Sys2Proof/Decode.lean ====
section
/-! DEFINITION. The encoding of spec/30_encoding.md: fields, opcode map, decoder and encoder. -/

namespace Sys2Proof

/-! ### Fields of a word (R66) -/

/-- `w[31:26]`. -/
def opcodeField (w : Word) : BitVec 6 := w.extractLsb' 26 6
/-- `w[25:21]`. -/
def rsField (w : Word) : RegNum := w.extractLsb' 21 5
/-- `w[20:16]`. -/
def rtField (w : Word) : RegNum := w.extractLsb' 16 5
/-- `w[15:11]`. -/
def rdField (w : Word) : RegNum := w.extractLsb' 11 5
/-- `w[10:6]`, the bits no rule reads (R72). -/
def shamtField (w : Word) : BitVec 5 := w.extractLsb' 6 5
/-- `w[5:0]`. -/
def functField (w : Word) : BitVec 6 := w.extractLsb' 0 6
/-- `w[15:0]`. -/
def imm16Field (w : Word) : BitVec 16 := w.extractLsb' 0 16
/-- `w[25:0]`. -/
def addr26Field (w : Word) : BitVec 26 := w.extractLsb' 0 26

/-! ### The three formats (R67, R68, R69) -/

/-- The R format (R67). -/
def rFormat (rs rt rd : RegNum) (shamt : BitVec 5) (funct : BitVec 6) : Word :=
  (0x00#6 ++ rs ++ rt ++ rd ++ shamt ++ funct).cast rfl
/-- The I format (R68). -/
def iFormat (opcode : BitVec 6) (rs rt : RegNum) (imm : BitVec 16) : Word :=
  (opcode ++ rs ++ rt ++ imm).cast rfl
/-- The J format (R69). -/
def jFormat (opcode : BitVec 6) (target : BitVec 26) : Word :=
  (opcode ++ target).cast rfl

/-! ### The opcode map (R70, D1; log entry 8) -/

def opcodeR : BitVec 6 := 0x00#6
def opcodeLw : BitVec 6 := 0x23#6
def opcodeSw : BitVec 6 := 0x2B#6
def opcodeBeq : BitVec 6 := 0x04#6
def opcodeJ : BitVec 6 := 0x02#6
def functAdd : BitVec 6 := 0x20#6
def functSub : BitVec 6 := 0x22#6
def functAnd : BitVec 6 := 0x24#6
def functOr : BitVec 6 := 0x25#6
def functSlt : BitVec 6 := 0x2A#6

/-! ### The decoder (R71) -/

/-- Why a word or a string of bytes is no instruction (R77). -/
inductive Rejection where
  /-- Fewer than the four bytes of an instruction (R65). -/
  | truncated
  /-- A nonzero word with opcode 0 whose function number no R row uses. -/
  | unknownFunct (funct : BitVec 6)
  /-- An opcode no row uses. -/
  | unknownOpcode (opcode : BitVec 6)
  deriving DecidableEq, Repr

/-- A nonzero word with opcode 0: the R row of its funct (R71). -/
def decodeR (w : Word) : Except Rejection Instr :=
  let f := functField w
  if f = functAdd then .ok (.add (rdField w) (rsField w) (rtField w) (shamtField w))
  else if f = functSub then .ok (.sub (rdField w) (rsField w) (rtField w) (shamtField w))
  else if f = functAnd then .ok (.and (rdField w) (rsField w) (rtField w) (shamtField w))
  else if f = functOr then .ok (.or (rdField w) (rsField w) (rtField w) (shamtField w))
  else if f = functSlt then .ok (.slt (rdField w) (rsField w) (rtField w) (shamtField w))
  else .error (.unknownFunct f)

/-- The instruction a word is, in the order R71 gives: `nop`, the R rows, the I and J rows; else the
word is undecodable. -/
def decode (w : Word) : Except Rejection Instr :=
  if w = 0#32 then .ok .nop
  else
    let op := opcodeField w
    if op = opcodeR then decodeR w
    else if op = opcodeLw then .ok (.lw (rtField w) (rsField w) (imm16Field w))
    else if op = opcodeSw then .ok (.sw (rtField w) (rsField w) (imm16Field w))
    else if op = opcodeBeq then .ok (.beq (rsField w) (rtField w) (imm16Field w))
    else if op = opcodeJ then .ok (.j (addr26Field w))
    else .error (.unknownOpcode op)

/-- A big-endian word from its four bytes, the first at the lowest address (spec/20_memory.md R47, R53). -/
def wordOfBytes (b0 b1 b2 b3 : Byte) : Word := (b0 ++ b1 ++ b2 ++ b3).cast rfl

/-- The four bytes of a word, most significant first (R53). -/
def bytesOfWord (w : Word) : List Byte :=
  [w.extractLsb' 24 8, w.extractLsb' 16 8, w.extractLsb' 8 8, w.extractLsb' 0 8]

/-- The decoder on bytes: it consumes exactly four (R65). -/
def decodeBytes : List Byte → Except Rejection (Instr × List Byte)
  | b0 :: b1 :: b2 :: b3 :: rest => (decode (wordOfBytes b0 b1 b2 b3)).map (·, rest)
  | _ => .error .truncated

/-! ### The encoder (R67 to R70) -/

/-- The word of an instruction. -/
def encode : Instr → Word
  | .add rd rs rt shamt => rFormat rs rt rd shamt functAdd
  | .sub rd rs rt shamt => rFormat rs rt rd shamt functSub
  | .and rd rs rt shamt => rFormat rs rt rd shamt functAnd
  | .or rd rs rt shamt => rFormat rs rt rd shamt functOr
  | .slt rd rs rt shamt => rFormat rs rt rd shamt functSlt
  | .lw rt rs imm => iFormat opcodeLw rs rt imm
  | .sw rt rs imm => iFormat opcodeSw rs rt imm
  | .beq rs rt imm => iFormat opcodeBeq rs rt imm
  | .j target => jFormat opcodeJ target
  | .nop => 0#32

/-- The row of the opcode table an instruction belongs to, as its match and mask (R70). -/
def matchMask : Instr → Word × Word
  | .add .. => (0x00000020#32, 0xFC00003F#32)
  | .sub .. => (0x00000022#32, 0xFC00003F#32)
  | .and .. => (0x00000024#32, 0xFC00003F#32)
  | .or .. => (0x00000025#32, 0xFC00003F#32)
  | .slt .. => (0x0000002A#32, 0xFC00003F#32)
  | .lw .. => (0x8C000000#32, 0xFC000000#32)
  | .sw .. => (0xAC000000#32, 0xFC000000#32)
  | .beq .. => (0x10000000#32, 0xFC000000#32)
  | .j .. => (0x08000000#32, 0xFC000000#32)
  | .nop => (0x00000000#32, 0xFFFFFFFF#32)

/-- `operand_count` of the instruction table (R85). -/
def operandCount : Instr → Nat
  | .add .. | .sub .. | .and .. | .or .. | .slt .. | .lw .. | .sw .. | .beq .. => 3
  | .j .. => 1
  | .nop => 0

/-- The word whose low `nbits` bits are those of `w`, every bit above them 0. -/
def tableWord (nbits w : Nat) : Word := BitVec.ofNat 32 (w % 2 ^ nbits)

/-- The host's question: the instruction the decoder reads from the word, laid out as the hardware
stores it, big-endian (R53). -/
def decodeTableWord (nbits w : Nat) : Option Instr :=
  match decodeBytes (bytesOfWord (tableWord nbits w)) with
  | .ok (i, []) => some i
  | _ => none

end Sys2Proof
end

