-- ==== Sys2Proof/Machine/Ops.lean ====
section
/-! DEFINITION. The named operations over memory and registers (spec/20_memory.md, spec/10_state.md R22,
R23), and taking a fault (spec/42_pipeline.md R152). There is no return from one (spec/60_exceptions.md
R209). -/

namespace Sys2Proof.Machine

/-! ### Bytes -/

/-- What an address that the memory does not list reads as: the zero fill of R44 and R49. -/
def unlistedByte : Byte := 0#8

/-- The byte at an address. -/
def readByte : Memory → Nat → Byte
  | [], _ => unlistedByte
  | (k, b) :: m, a => if k = a then b else readByte m a

/-- One byte written, in canonical form: an address that now reads as unlisted is not listed. -/
def writeByte : Memory → Nat → Byte → Memory
  | [], a, v => if v = unlistedByte then [] else [(a, v)]
  | (k, b) :: m, a, v =>
    if k < a then (k, b) :: writeByte m a v
    else
      let rest := if k = a then m else (k, b) :: m
      if v = unlistedByte then rest else (a, v) :: rest

/-- The canonical form: addresses strictly rising, no entry equal to what an unlisted address reads
as. -/
def Memory.wf : Memory → Bool
  | [] => true
  | (k, b) :: m => decide (b ≠ unlistedByte) && m.all (fun c => decide (k < c.1)) && Memory.wf m

/-- Every listed address lies below `size`. -/
def Memory.within (m : Memory) (size : Nat) : Bool := m.all (fun c => decide (c.1 < size))

/-- A buffer laid out from address `base` (R44, "left-justified, remainder zero-filled" R49). -/
def memoryOfBytes (base : Nat) : List Byte → Memory
  | [] => []
  | b :: bs =>
    if b = unlistedByte then memoryOfBytes (base + 1) bs
    else (base, b) :: memoryOfBytes (base + 1) bs

/-! ### Big-endian words (R47, R50, R51, R53) -/

/-- `MemRead(a, 4)`: the big-endian word at `a` (R50). -/
def readWord (m : Memory) (a : Nat) : Word :=
  wordOfBytes (readByte m a) (readByte m (a + 1)) (readByte m (a + 2)) (readByte m (a + 3))

/-- `MemWrite(a, 4, v)`: the most significant byte at the lowest address (R51). -/
def writeWord (m : Memory) (a : Nat) (v : Word) : Memory :=
  let m := writeByte m a (v.extractLsb' 24 8)
  let m := writeByte m (a + 1) (v.extractLsb' 16 8)
  let m := writeByte m (a + 2) (v.extractLsb' 8 8)
  writeByte m (a + 3) (v.extractLsb' 0 8)

/-! ### The two address spaces -/

/-- `Fetch(a)` (R47): the big-endian word inside instruction memory, the `nop` word at or past its end.
A misaligned or partial fetch has no defined outcome (R48, D29; log entry 5). -/
def fetchWord (imem : Memory) (imemLen : Nat) (a : Word) : Except Fault Word :=
  if a.toNat % 4 ≠ 0 then .error (.undefinedFetch a)
  else if a.toNat + 4 ≤ imemLen then .ok (readWord imem a.toNat)
  else if imemLen ≤ a.toNat then .ok 0#32
  else .error (.undefinedFetch a)

/-- The checks before a data access (R52, R206): misaligned first, then out of bounds, the address
unsigned. -/
def dataCheck (dmemSize : Nat) (a : Word) : Option FaultRecord :=
  if a.toNat % 4 ≠ 0 then some (.misalignedData a)
  else if a.toNat + 4 > dmemSize then some (.dataOutOfBounds a)
  else none

/-! ### Registers -/

/-- `x[i]` (R22): register 0 reads 0 under `R0_HARDWIRED`. -/
def readReg (r0Hardwired : Bool) (regs : Registers) (i : RegNum) : Word :=
  if r0Hardwired ∧ i = 0#5 then 0#32 else regs[i.toNat]

/-- `x[i] <- v` (R23): a write to register 0 is discarded under `R0_HARDWIRED`. -/
def writeReg (r0Hardwired : Bool) (regs : Registers) (i : RegNum) (v : Word) : Registers :=
  if r0Hardwired ∧ i = 0#5 then regs else regs.set i.toNat v

/-! ### Taking a fault -/

/-- The state after a cycle that raises `r` (R152): as it was at the start of the cycle, with the record
set and `running` cleared. -/
def State.raise (s : State) (r : FaultRecord) : State :=
  { s with fault := some r, running := false }

/-- The number of a fault (R205, D32). -/
def FaultRecord.code : FaultRecord → Nat
  | .decodeError .. => 1
  | .dataOutOfBounds .. => 2
  | .misalignedData .. => 3

end Sys2Proof.Machine
end

