-- ==== Sys2Proof/Machine/Operands.lean ====
section
/-! DEFINITION. Operand forms and address computations (spec/00_scope.md R12, spec/30_encoding.md R74 to
R76, spec/40_control_alu.md R98, R104, R105). -/

namespace Sys2Proof.Machine

/-- `sext_32` of a 16-bit field (R12). -/
def sext16 (v : BitVec 16) : Word := v.signExtend 32

/-- The effective address of a `lw` or `sw`: base plus signed displacement, modulo 2^32
(spec/44_load_store.md R170). -/
def effectiveAddress (base : Word) (imm : BitVec 16) : Word := base + sext16 imm

/-- The ALU's second operand (R98). -/
def aluOperand2 (e : IdEx) : Word := if e.ctrl.aluSrc then e.imm else e.rtVal

/-- `branch_addr`: the latched pc plus the immediate as a word offset (R104). -/
def branchAddr (pc imm : Word) : Word := pc + (imm <<< 2)

/-- `jump_addr`: the top four bits of the latched pc, the target field, two zero bits (R104, D2; log
entry 9). -/
def jumpAddr (pc : Word) (addr : BitVec 26) : Word :=
  (pc.extractLsb' 28 4 ++ addr ++ 0#2).cast rfl

/-- The destination register select (R105). -/
def destination (e : IdEx) : RegNum := if e.ctrl.regDst then e.rd else e.rt

end Sys2Proof.Machine
end

