-- ==== Sys2Proof/Machine/Alu.lean ====
section
/-! DEFINITION. ALU control and the ALU (spec/40_control_alu.md R95 to R103). -/

namespace Sys2Proof.Machine

/-- The five ALU control codes; the marker `NONE` of R96 is `none` of the option. -/
inductive AluCode where
  | and | or | add | sub | slt
  deriving DecidableEq, Repr

/-- The 4-bit value of a code (R96). -/
def AluCode.bits : AluCode → BitVec 4
  | .and => 0b0000#4
  | .or => 0b0001#4
  | .add => 0b0010#4
  | .sub => 0b0110#4
  | .slt => 0b0111#4

/-- `alu_control(alu_op, f)` (R97). -/
def aluControl (aluOp : BitVec 2) (f : BitVec 6) : Option AluCode :=
  if aluOp = 0b00#2 then some .add
  else if aluOp = 0b01#2 then some .sub
  else if aluOp = 0b10#2 then
    if f = functAdd then some .add
    else if f = functSub then some .sub
    else if f = functAnd then some .and
    else if f = functOr then some .or
    else if f = functSlt then some .slt
    else none
  else none

/-- `alu(code, a, b)` (R99): add and subtract modulo 2^32 with no overflow (R100), `slt` unsigned (R101,
C2), 0 for `NONE` (D12). -/
def alu : Option AluCode → Word → Word → Word
  | some .and, a, b => a &&& b
  | some .or, a, b => a ||| b
  | some .add, a, b => a + b
  | some .sub, a, b => a - b
  | some .slt, a, b => if a.toNat < b.toNat then 1#32 else 0#32
  | none, _, _ => 0#32

/-- The counter of the code goes up by one, and none for `NONE` (R103, D13). -/
def countAlu (ops : OpCounters) : Option AluCode → OpCounters
  | some .add => { ops with add := ops.add + 1 }
  | some .sub => { ops with sub := ops.sub + 1 }
  | some .and => { ops with and := ops.and + 1 }
  | some .or => { ops with or := ops.or + 1 }
  | some .slt => { ops with slt := ops.slt + 1 }
  | none => ops

/-- ALU control of the latched instruction: the funct is bits 5..0 of the latched immediate (R95, R97,
R74). -/
def latchedAluCode (e : IdEx) : Option AluCode := aluControl e.ctrl.aluOp (e.imm.extractLsb' 0 6)

/-- The ALU result of the latched instruction (R98, R99). -/
def latchedAluResult (e : IdEx) : Word := alu (latchedAluCode e) e.rsVal (aluOperand2 e)

end Sys2Proof.Machine
end

