-- ==== Sys2Proof/Machine/ControlUnit.lean ====
section
/-! DEFINITION. The control unit (spec/40_control_alu.md R90 to R93). -/

namespace Sys2Proof.Machine

/-- The R-type row of the control table (R91). -/
def Control.rTypeRow : Control :=
  { regDst := true, aluOp := 0b10#2, aluSrc := false, branch := false, jump := false,
    memRead := false, memWrite := false, regWrite := true, memToReg := false }

/-- The `lw` row (R91). -/
def Control.lwRow : Control :=
  { regDst := false, aluOp := 0b00#2, aluSrc := true, branch := false, jump := false,
    memRead := true, memWrite := false, regWrite := true, memToReg := true }

/-- The `sw` row (R91). -/
def Control.swRow : Control :=
  { regDst := false, aluOp := 0b00#2, aluSrc := true, branch := false, jump := false,
    memRead := false, memWrite := true, regWrite := false, memToReg := false }

/-- The `beq` row (R91). -/
def Control.beqRow : Control :=
  { regDst := false, aluOp := 0b01#2, aluSrc := false, branch := true, jump := false,
    memRead := false, memWrite := false, regWrite := false, memToReg := false }

/-- The `j` row (R91). -/
def Control.jRow : Control :=
  { regDst := false, aluOp := 0b10#2, aluSrc := false, branch := false, jump := true,
    memRead := false, memWrite := false, regWrite := false, memToReg := false }

/-- The row of an instruction's class (R91); the `nop` row is `Control.nopRow`. -/
def Control.ofInstr : Instr → Control
  | .nop => Control.nopRow
  | .add .. | .sub .. | .and .. | .or .. | .slt .. => Control.rTypeRow
  | .lw .. => Control.lwRow
  | .sw .. => Control.swRow
  | .beq .. => Control.beqRow
  | .j .. => Control.jRow

/-- `control(w)`, a pure function of the word (R90). It is never applied to an undecodable word (R93),
so there it has no bundle. -/
def controlUnit (w : Word) : Option Control :=
  match decode w with
  | .ok i => some (Control.ofInstr i)
  | .error _ => none

end Sys2Proof.Machine
end

