-- ==== Sys2Proof/Machine/HazardUnit.lean ====
section
/-! DEFINITION. The hazard-detection unit (spec/41_hazard_unit.md R110 to R113). -/

namespace Sys2Proof.Machine

/-- The larger of two bubble counts, unsigned. -/
def maxCount (a b : BitVec 8) : BitVec 8 := if a < b then b else a

/-- The source registers of an instruction, by its class (R112, D7). -/
def sourcesOf : Instr → List RegNum
  | .add _ rs rt _ | .sub _ rs rt _ | .and _ rs rt _ | .or _ rs rt _ | .slt _ rs rt _ => [rs, rt]
  | .lw _ rs _ => [rs]
  | .sw rt rs _ => [rs, rt]
  | .beq rs rt _ => [rs, rt]
  | .j _ => []
  | .nop => []

/-- `sources(D)` of a word (R112): none for an undecodable one. -/
def sources (w : Word) : List RegNum :=
  match decode w with
  | .ok i => sourcesOf i
  | .error _ => []

/-- The data check on a source set: the largest count of the three conditions that hold (R111, D8). -/
def dataHazard (haz : HazardCounts) (srcs : List RegNum) (p : Latches) : BitVec 8 :=
  let ex := if p.exMem.regWrite = true ∧ p.exMem.reg ∈ srcs then haz.exMem else 0#8
  let wb := if p.memWb.regWrite = true ∧ p.memWb.reg ∈ srcs then haz.memWb else 0#8
  let ld := if p.idEx.ctrl.memRead = true ∧ p.idEx.rt ∈ srcs then haz.load else 0#8
  maxCount (maxCount ex wb) ld

/-- Whether the word is a control transfer: nonzero, with the opcode of `beq` or `j` (R113). -/
def isTransfer (w : Word) : Bool :=
  w ≠ 0#32 && (opcodeField w = opcodeBeq || opcodeField w = opcodeJ)

/-- The control check (R113). -/
def controlHazard (haz : HazardCounts) (transfer : Bool) : BitVec 8 :=
  if transfer then haz.ctrl else 0#8

/-- The unit's result on the word in IF/ID: the larger of the two checks (R110). -/
def detected (haz : HazardCounts) (w : Word) (p : Latches) : BitVec 8 :=
  maxCount (dataHazard haz (sources w) p) (controlHazard haz (isTransfer w))

end Sys2Proof.Machine
end

