-- ==== Sys2Proof/Machine/Pipeline.lean ====
section
/-! DEFINITION. The five stages, the halt rule and one clock cycle (spec/42_pipeline.md R125 to R154).

A stage reads latches only from the snapshot of the start of the cycle, `s.latches` (R127); the
architectural state is threaded through the stages in the order WB, IF, ID, EX, MEM (R126). The word the
ID stage decodes, with its control row and its source set, is an argument: each instruction's meaning
supplies its own. -/

namespace Sys2Proof.Machine

/-! ### WB -/

/-- The value WB writes (R128). -/
def writeBackValue (l : MemWb) : Word := if l.memToReg then l.readData else l.aluResult

/-- The register file after WB (R128): it runs first, so the ID stage of the same cycle reads the new
value (R129). -/
def writeBack (r0Hardwired : Bool) (regs : Registers) (l : MemWb) : Registers :=
  if l.regWrite then writeReg r0Hardwired regs l.reg (writeBackValue l) else regs

/-! ### IF -/

/-- What the IF stage leaves. -/
structure FetchOut where
  ifId : IfId
  pc : Word
  bubbles : BitVec 8
  instructionCount : Nat
  /-- 1 if a word was fetched, 0 if a bubble was injected. -/
  fetched : Nat
  deriving DecidableEq, Repr

/-- The fetch address: a taken branch's or a jump's target waiting in EX/MEM, else `pc` (R132). -/
def redirect (pc : Word) (l : ExMem) : Word :=
  if l.branch = true ∧ l.zeroFlag = true then l.branchAddr
  else if l.jump = true then l.jumpAddr
  else pc

/-- The IF stage (R130): a bubble while a stall is pending, which looks at no redirect and so loses
one that is waiting (R131, D11); else redirect and fetch (R132 to R135). -/
def fetchStage (s : State) : Except Fault FetchOut :=
  if s.bubblesRemaining ≠ 0#8 then
    .ok { ifId := { inst := 0#32, pc := s.pc }
          pc := s.pc
          bubbles := s.bubblesRemaining - 1#8
          instructionCount := s.instructionCount
          fetched := 0 }
  else
    let a := redirect s.pc s.latches.exMem
    match fetchWord s.imem s.params.imemLen a with
    | .error r => .error r
    | .ok w =>
      .ok { ifId := { inst := w, pc := a + 4#32 }
            pc := a + 4#32
            bubbles := s.bubblesRemaining
            instructionCount := s.instructionCount + 1
            fetched := 1 }

/-! ### ID -/

/-- What the ID stage leaves. -/
structure DecodeOut where
  idEx : IdEx
  ifId : IfId
  pc : Word
  bubbles : BitVec 8
  instructionCount : Nat
  deriving DecidableEq, Repr

/-- The ID/EX latch of a word (R145): both registers are read for every word, whatever its format. -/
def latchIdEx (r0Hardwired : Bool) (regs : Registers) (c : Control) (w pc : Word) : IdEx :=
  { pc := pc
    ctrl := c
    rsVal := readReg r0Hardwired regs (rsField w)
    rtVal := readReg r0Hardwired regs (rtField w)
    rt := rtField w
    rd := rdField w
    imm := sext16 (imm16Field w)
    addr := addr26Field w }

/-- The ID stage after its decode-error check (R138 to R145). A data stall cancels the word, rolls `pc`
back to its address, squashes the word fetched this cycle and takes both out of the count (R141, D9); a
control stall only raises the stall count (R142, D10). `regs` is the register file after WB, `f` what IF
left. -/
def decodeStage (c : Control) (srcs : List RegNum) (transfer : Bool) (w : Word) (s : State)
    (regs : Registers) (f : FetchOut) : DecodeOut :=
  let haz := s.params.haz
  let r0 := s.params.r0Hardwired
  let d := s.latches.ifId
  let dh := dataHazard haz srcs s.latches
  let bubbles := maxCount (maxCount f.bubbles dh) (controlHazard haz transfer)
  if dh ≠ 0#8 then
    { idEx := latchIdEx r0 regs Control.nopRow 0#32 (d.pc - 4#32)
      ifId := { inst := 0#32, pc := d.pc - 4#32 }
      pc := d.pc - 4#32
      bubbles := bubbles - 1#8
      instructionCount := f.instructionCount - 1 - f.fetched }
  else
    { idEx := latchIdEx r0 regs c w d.pc
      ifId := f.ifId
      pc := f.pc
      bubbles := bubbles
      instructionCount := f.instructionCount }

/-! ### EX -/

/-- The EX/MEM latch the EX stage builds (R146): six control bits forwarded, the zero flag of the
result, and both target addresses whatever the instruction (R104). -/
def executeStage (e : IdEx) : ExMem :=
  { branch := e.ctrl.branch
    jump := e.ctrl.jump
    memRead := e.ctrl.memRead
    memWrite := e.ctrl.memWrite
    regWrite := e.ctrl.regWrite
    memToReg := e.ctrl.memToReg
    zeroFlag := zeroFlag (latchedAluResult e)
    aluResult := latchedAluResult e
    branchAddr := branchAddr e.pc e.imm
    jumpAddr := jumpAddr e.pc e.addr
    storeVal := e.rtVal
    reg := destination e }

/-- The operation counters after EX (R103). -/
def executeCount (ops : OpCounters) (e : IdEx) : OpCounters := countAlu ops (latchedAluCode e)

/-! ### MEM -/

/-- What the MEM stage leaves. -/
structure MemOut where
  memWb : MemWb
  dmem : Memory
  ops : OpCounters
  deriving DecidableEq, Repr

/-- The MEM stage (R148 to R150): check the address if there is an access, then read, then write. The
order of a read and a write of one cycle is that of R125; no control row asks for both. `ops` are the
counters after EX. -/
def memStage (dmemSize : Nat) (dmem : Memory) (ops : OpCounters) (l : ExMem) :
    Except FaultRecord MemOut :=
  let a := l.aluResult
  let check := if l.memRead = true ∨ l.memWrite = true then dataCheck dmemSize a else none
  match check with
  | some r => .error r
  | none =>
    .ok { memWb := { regWrite := l.regWrite
                     memToReg := l.memToReg
                     readData := if l.memRead then readWord dmem a.toNat else 0#32
                     aluResult := a
                     reg := l.reg }
          dmem := if l.memWrite then writeWord dmem a.toNat l.storeVal else dmem
          ops := { ops with
                   memRead := if l.memRead then ops.memRead + 1 else ops.memRead
                   memWrite := if l.memWrite then ops.memWrite + 1 else ops.memWrite } }

/-! ### End of cycle -/

/-- Nothing in flight can still change state (R154). -/
def quiescent (l : Latches) : Bool :=
  l.ifId.inst == 0#32
    && !(l.idEx.ctrl.regWrite || l.idEx.ctrl.memRead || l.idEx.ctrl.memWrite || l.idEx.ctrl.branch
          || l.idEx.ctrl.jump)
    && !(l.exMem.regWrite || l.exMem.memRead || l.exMem.memWrite || l.exMem.branch || l.exMem.jump)
    && !l.memWb.regWrite

/-- `Halted()` (R153, D19). -/
def halted (s : State) : Bool :=
  decide (s.params.imemLen ≤ s.pc.toNat) && s.bubblesRemaining == 0#8 && quiescent s.latches

/-- The state the completed stages leave, before the halt rule (R151). -/
def afterStages (s : State) (regs : Registers) (d : DecodeOut) (m : MemOut) : State :=
  { s with
    pc := d.pc
    regs := regs
    dmem := m.dmem
    bubblesRemaining := d.bubbles
    cycleCount := s.cycleCount + 1
    instructionCount := d.instructionCount
    ops := m.ops
    latches := { ifId := d.ifId
                 idEx := d.idEx
                 exMem := executeStage s.latches.idEx
                 memWb := m.memWb } }

/-- The halt rule at the end of a completed cycle (R153). -/
def settleRunning (s : State) : State := { s with running := !halted s }

/-! ### One cycle -/

/-- One clock cycle in which the ID stage decodes the word `w`, with control row `c`, source set `srcs`
and `transfer` if it is a control transfer (R125). A fault of MEM leaves the state of the start of the
cycle with the record set (R152). -/
def decodeCycle (c : Control) (srcs : List RegNum) (transfer : Bool) (w : Word) (s : State) :
    Host.Outcome State Fault Refusal :=
  match fetchStage s with
  | .error r => .fault r
  | .ok f =>
    match memStage s.params.dmemSize s.dmem (executeCount s.ops s.latches.idEx) s.latches.exMem with
    | .error r => .next (s.raise r)
    | .ok m =>
      let regs := writeBack s.params.r0Hardwired s.regs s.latches.memWb
      .next (settleRunning (afterStages s regs (decodeStage c srcs transfer w s regs f) m))

end Sys2Proof.Machine
end

