-- ==== Sys2Proof/Machine/AluOps.lean ====
section
/-! DEFINITION. The R-format operations (spec/43_alu_ops.md R160 to R165).

`exec i s` is the clock cycle in which the ID stage decodes `i` (log entry 1). Each meaning gives the
ID stage the instruction's control row, source set and word; its ALU operation runs in EX one cycle
later from the latched funct, and its register is written in WB three cycles later (R160). -/

namespace Sys2Proof.Machine

/-- `x[rd] <- (x[rs] + x[rt]) mod 2^32` (R161). -/
def execAdd (rd rs rt : RegNum) (shamt : BitVec 5) (s : State) : Host.Outcome State Fault Refusal :=
  decodeCycle Control.rTypeRow [rs, rt] false (rFormat rs rt rd shamt functAdd) s

/-- `x[rd] <- (x[rs] - x[rt]) mod 2^32` (R162). -/
def execSub (rd rs rt : RegNum) (shamt : BitVec 5) (s : State) : Host.Outcome State Fault Refusal :=
  decodeCycle Control.rTypeRow [rs, rt] false (rFormat rs rt rd shamt functSub) s

/-- `x[rd] <- x[rs] AND x[rt]` (R163). -/
def execAnd (rd rs rt : RegNum) (shamt : BitVec 5) (s : State) : Host.Outcome State Fault Refusal :=
  decodeCycle Control.rTypeRow [rs, rt] false (rFormat rs rt rd shamt functAnd) s

/-- `x[rd] <- x[rs] OR x[rt]` (R164). -/
def execOr (rd rs rt : RegNum) (shamt : BitVec 5) (s : State) : Host.Outcome State Fault Refusal :=
  decodeCycle Control.rTypeRow [rs, rt] false (rFormat rs rt rd shamt functOr) s

/-- `x[rd] <- (u32(x[rs]) < u32(x[rt])) ? 1 : 0` (R165). -/
def execSlt (rd rs rt : RegNum) (shamt : BitVec 5) (s : State) : Host.Outcome State Fault Refusal :=
  decodeCycle Control.rTypeRow [rs, rt] false (rFormat rs rt rd shamt functSlt) s

end Sys2Proof.Machine
end

