-- ==== Sys2Proof/Machine/BranchJump.lean ====
section
/-! DEFINITION. Control transfer (spec/45_branch_jump.md R180 to R184). The cycle of `exec` is the ID
cycle (log entry 1): the transfer raises its control hazard there; the target is computed in EX and
IF redirects in the cycle after that, unless it injects a bubble (R183). -/

namespace Sys2Proof.Machine

/-- Branch to `(a + 4) + (sext(imm) << 2)` if `x[rs] = x[rt]` (R180). -/
def execBeq (rs rt : RegNum) (imm : BitVec 16) (s : State) : Host.Outcome State Fault Refusal :=
  decodeCycle Control.beqRow [rs, rt] true (iFormat opcodeBeq rs rt imm) s

/-- Jump to `(a + 4)[31:28] ‖ n ‖ 00` (R181). -/
def execJ (target : BitVec 26) (s : State) : Host.Outcome State Fault Refusal :=
  decodeCycle Control.jRow [] true (jFormat opcodeJ target) s

end Sys2Proof.Machine
end

