-- ==== Sys2Proof/Machine/LoadStore.lean ====
section
/-! DEFINITION. Loads and stores (spec/44_load_store.md R170 to R172). The cycle of `exec` is the ID
cycle (log entry 1); the access and its checks come in MEM two cycles later. -/

namespace Sys2Proof.Machine

/-- `x[rt] <- MemRead(x[rs] + sext(imm), 4)` (R171). Its only source is the base. -/
def execLw (rt rs : RegNum) (imm : BitVec 16) (s : State) : Host.Outcome State Fault Refusal :=
  decodeCycle Control.lwRow [rs] false (iFormat opcodeLw rs rt imm) s

/-- `MemWrite(x[rs] + sext(imm), 4, x[rt])` (R172). -/
def execSw (rt rs : RegNum) (imm : BitVec 16) (s : State) : Host.Outcome State Fault Refusal :=
  decodeCycle Control.swRow [rs, rt] false (iFormat opcodeSw rs rt imm) s

end Sys2Proof.Machine
end

