-- ==== Sys2Proof/Machine/Nop.lean ====
section
/-! DEFINITION. The no-operation, which is also what a bubble is (spec/46_nop.md R190 to R192). -/

namespace Sys2Proof.Machine

/-- No sources, no hazard, no effect of its own in any stage (R190). -/
def execNop (s : State) : Host.Outcome State Fault Refusal :=
  decodeCycle Control.nopRow [] false 0#32 s

end Sys2Proof.Machine
end

