-- ==== Sys2Proof/Machine/Step.lean ====
section
/-! DEFINITION. One step of the machine: one clock cycle (spec/42_pipeline.md R125). -/

namespace Sys2Proof.Machine

/-- One clock cycle. It is taken only while `running` is true and no fault is recorded; a stopped core
stays as it is (R125, R155, R219; log entry 3). An undecodable word in IF/ID raises `DecodeError` with
the address it was fetched from (R137); any other word is decoded and its instruction's cycle runs. -/
def step (s : State) : Host.Outcome State Fault Refusal :=
  if s.running = true ∧ s.fault = none then
    match decode s.latches.ifId.inst with
    | .ok i => exec i s
    | .error _ => .next (s.raise (.decodeError (s.latches.ifId.pc - 4#32) s.latches.ifId.inst))
  else .next s

/-- `s` with the word loaded at `pc` and already fetched by the IF stage, so that the very next step
decodes and runs it (log entry 2): instruction memory holds it and reaches past it, IF/ID holds it with
the address after it, `pc` and `instruction_count` are as the fetch leaves them (R133, R134), and the core
is running. -/
def State.withFetchWord (s : State) (nbits w : Nat) : State :=
  let word := tableWord nbits w
  { s with
    params := { s.params with imemLen := max s.params.imemLen (s.pc.toNat + 4) }
    imem := writeWord s.imem s.pc.toNat word
    latches := { s.latches with ifId := { inst := word, pc := s.pc + 4#32 } }
    pc := s.pc + 4#32
    instructionCount := s.instructionCount + 1
    running := true
    fault := none }

end Sys2Proof.Machine
end

