-- ==== Sys2Proof/Machine/Assembly.lean ====
section
/-! DEFINITION. The assembler syntax and the disassembly (spec/30_encoding.md R79 to R85). It is software
beside the core, not hardware (spec/00_scope.md R5); no step reads it. Text is a list of characters.
The details the spec leaves open are in log entry 14. -/

namespace Sys2Proof.Machine

/-- A piece of assembler text. -/
abbrev Text := List Char

/-! ### Statement to instruction (R80 to R83) -/

/-- The R-format instruction of a mnemonic, with `shamt` 0. -/
def aluInstr (op : AluMnemonic) (rd rs rt : RegNum) : Instr :=
  match op with
  | .add => .add rd rs rt 0#5
  | .sub => .sub rd rs rt 0#5
  | .and => .and rd rs rt 0#5
  | .or => .or rd rs rt 0#5
  | .slt => .slt rd rs rt 0#5

/-- The operands of a statement at address `a` put into their fields, the ranges unchecked. -/
def translateSource (a : Word) : SourceInstr → Instr
  | .alu op rd rs rt => aluInstr op (BitVec.ofNat 5 rd) (BitVec.ofNat 5 rs) (BitVec.ofNat 5 rt)
  | .mem .lw rt imm rs => .lw (BitVec.ofNat 5 rt) (BitVec.ofNat 5 rs) (BitVec.ofInt 16 imm)
  | .mem .sw rt imm rs => .sw (BitVec.ofNat 5 rt) (BitVec.ofNat 5 rs) (BitVec.ofInt 16 imm)
  | .beq rs rt imm => .beq (BitVec.ofNat 5 rs) (BitVec.ofNat 5 rt) (BitVec.ofInt 16 imm)
  | .beqTo rs rt label =>
    .beq (BitVec.ofNat 5 rs) (BitVec.ofNat 5 rt) (BitVec.ofInt 16 (branchDistance a label / 4))
  | .j n => .j (BitVec.ofInt 26 n)
  | .jTo label => .j (label.extractLsb' 2 26)
  | .nop => .nop

/-- Assemble a statement at address `a`; an operand out of range is refused (R82). -/
def assemble (a : Word) (src : SourceInstr) : Option Instr :=
  if src.wellFormed a then some (translateSource a src) else none

/-- The statement an instruction disassembles to (R84); the `shamt` bits are not shown. -/
def toSource : Instr → SourceInstr
  | .add rd rs rt _ => .alu .add rd.toNat rs.toNat rt.toNat
  | .sub rd rs rt _ => .alu .sub rd.toNat rs.toNat rt.toNat
  | .and rd rs rt _ => .alu .and rd.toNat rs.toNat rt.toNat
  | .or rd rs rt _ => .alu .or rd.toNat rs.toNat rt.toNat
  | .slt rd rs rt _ => .alu .slt rd.toNat rs.toNat rt.toNat
  | .lw rt rs imm => .mem .lw rt.toNat imm.toInt rs.toNat
  | .sw rt rs imm => .mem .sw rt.toNat imm.toInt rs.toNat
  | .beq rs rt imm => .beq rs.toNat rt.toNat imm.toInt
  | .j n => .j n.toNat
  | .nop => .nop

/-! ### Mnemonics -/

def aluName : AluMnemonic → Text
  | .add => ['a', 'd', 'd']
  | .sub => ['s', 'u', 'b']
  | .and => ['a', 'n', 'd']
  | .or => ['o', 'r']
  | .slt => ['s', 'l', 't']

def memName : MemMnemonic → Text
  | .lw => ['l', 'w']
  | .sw => ['s', 'w']

def beqName : Text := ['b', 'e', 'q']
def jName : Text := ['j']
def nopName : Text := ['n', 'o', 'p']

/-! ### Disassembly (R84) -/

/-- An unsigned decimal. -/
def natText (n : Nat) : Text := Nat.toDigits 10 n

/-- A signed decimal. -/
def intText : Int → Text
  | .ofNat n => natText n
  | .negSucc n => '-' :: natText (n + 1)

/-- `$n` (R79). -/
def regText (n : Nat) : Text := '$' :: natText n

/-- The mnemonic, one space, the operands with a comma and a space between them. -/
def statementText (mnemonic : Text) (operands : List Text) : Text :=
  mnemonic ++ ' ' :: List.intercalate [',', ' '] operands

/-- The text of a statement with numeric operands (R80 to R83); a label operand is printed as its
address. -/
def sourceText : SourceInstr → Text
  | .alu op rd rs rt => statementText (aluName op) [regText rd, regText rs, regText rt]
  | .mem op rt imm rs =>
    statementText (memName op) [regText rt, intText imm ++ '(' :: regText rs ++ [')']]
  | .beq rs rt imm => statementText beqName [regText rs, regText rt, intText imm]
  | .beqTo rs rt label => statementText beqName [regText rs, regText rt, natText label.toNat]
  | .j n => statementText jName [intText n]
  | .jTo label => statementText jName [natText label.toNat]
  | .nop => nopName

/-- `decode_to_text(w)`: the text of a decodable word; no text, and the reason, for an undecodable one
(R84). -/
def decodeToText (w : Word) : Except Rejection Text :=
  match decode w with
  | .ok i => .ok (sourceText (toSource i))
  | .error r => .error r

/-! ### Reading text (R79 to R83) -/

/-- The value of a digit up to base 16. -/
def digitValue (c : Char) : Option Nat :=
  let n := c.toNat
  if 48 ≤ n ∧ n ≤ 57 then some (n - 48)
  else if 97 ≤ n ∧ n ≤ 102 then some (n - 87)
  else if 65 ≤ n ∧ n ≤ 70 then some (n - 55)
  else none

/-- The digits of a number in a base, most significant first, onto what was read so far. -/
def readDigits (base acc : Nat) : Text → Option Nat
  | [] => some acc
  | c :: cs =>
    match digitValue c with
    | some d => if d < base then readDigits base (base * acc + d) cs else none
    | none => none

/-- A decimal number, at least one digit. -/
def readDecimal : Text → Option Nat
  | [] => none
  | cs => readDigits 10 0 cs

/-- A decimal number, or a hexadecimal one after `0x` (R79). -/
def readNat : Text → Option Nat
  | '0' :: 'x' :: c :: cs => readDigits 16 0 (c :: cs)
  | cs => readDecimal cs

/-- An optionally signed number (R79). -/
def readInt : Text → Option Int
  | '-' :: cs => (readNat cs).map fun n => -(n : Int)
  | '+' :: cs => (readNat cs).map fun n => (n : Int)
  | cs => (readNat cs).map fun n => (n : Int)

/-- A register operand `$n`, n decimal (R79). -/
def readRegister : Text → Option Nat
  | '$' :: cs => readDecimal cs
  | _ => none

/-- The operand `imm($rs)` of a load or store (R81). -/
def readAddress (cs : Text) : Option (Int × Nat) :=
  let imm := cs.takeWhile (· ≠ '(')
  match cs.dropWhile (· ≠ '('), readInt imm with
  | '(' :: rest, some i =>
    match rest.reverse with
    | ')' :: reg => (readRegister reg.reverse).map fun r => (i, r)
    | _ => none
  | _, _ => none

/-- Text cut at its commas, spaces after a comma dropped (R79). `cur` is the operand being read, `fresh`
whether nothing of it was read yet. -/
def cutOperands (cur : Text) (fresh : Bool) : Text → List Text
  | [] => [cur]
  | c :: cs =>
    if c = ',' then cur :: cutOperands [] true cs
    else if c = ' ' ∧ fresh = true then cutOperands cur true cs
    else cutOperands (cur ++ [c]) false cs

/-- The labels of a program, each with the address it stands for (R82). -/
abbrev Labels := List (Text × Word)

/-- The operands of a `beq` (R82): a number is the encoded offset, anything else a label. -/
def readBranch (labels : Labels) (rs rt target : Text) : Option SourceInstr :=
  match readRegister rs, readRegister rt with
  | some s, some t =>
    match readInt target, labels.lookup target with
    | some imm, _ => some (.beq s t imm)
    | none, some l => some (.beqTo s t l)
    | none, none => none
  | _, _ => none

/-- The operand of a `j` (R82): a number is the encoded field, anything else a label. -/
def readJump (labels : Labels) (target : Text) : Option SourceInstr :=
  match readInt target, labels.lookup target with
  | some n, _ => some (.j n)
  | none, some l => some (.jTo l)
  | none, none => none

/-- The three registers of an R-format statement (R80). -/
def readAlu (op : AluMnemonic) : List Text → Option SourceInstr
  | [d, s, t] =>
    match readRegister d, readRegister s, readRegister t with
    | some rd, some rs, some rt => some (.alu op rd rs rt)
    | _, _, _ => none
  | _ => none

/-- The register and the address of a load or store (R81). -/
def readMem (op : MemMnemonic) : List Text → Option SourceInstr
  | [t, addr] =>
    match readRegister t, readAddress addr with
    | some rt, some (imm, rs) => some (.mem op rt imm rs)
    | _, _ => none
  | _ => none

/-- A line of assembler text as a statement. -/
def readSource (labels : Labels) (line : Text) : Option SourceInstr :=
  let mnemonic := line.takeWhile (· ≠ ' ')
  let operands := cutOperands [] true (line.dropWhile (· ≠ ' '))
  if mnemonic = aluName .add then readAlu .add operands
  else if mnemonic = aluName .sub then readAlu .sub operands
  else if mnemonic = aluName .and then readAlu .and operands
  else if mnemonic = aluName .or then readAlu .or operands
  else if mnemonic = aluName .slt then readAlu .slt operands
  else if mnemonic = memName .lw then readMem .lw operands
  else if mnemonic = memName .sw then readMem .sw operands
  else if mnemonic = beqName then
    match operands with
    | [s, t, target] => readBranch labels s t target
    | _ => none
  else if mnemonic = jName then
    match operands with
    | [target] => readJump labels target
    | _ => none
  else if line = nopName then some .nop
  else none

/-- The word a line of text at address `a` assembles to, or none if the assembler refuses it. -/
def assembleLine (labels : Labels) (a : Word) (line : Text) : Option Word :=
  match readSource labels line with
  | some src => (assemble a src).map encode
  | none => none

end Sys2Proof.Machine
end

