-- ==== Sys2Proof/Machine/Launch.lean ====
section
/-! DEFINITION. The launch: the load interface, the configuration errors and reset
(spec/70_reset_and_hazards.md R230, R233, R234, R236), and the host's observation
(spec/60_exceptions.md R216). -/

namespace Sys2Proof.Machine

/-- An input buffer as the host supplies it (R233, R234). -/
inductive InputBuffer where
  /-- The host gives no such buffer. -/
  | notGiven
  /-- The host names one that is missing or unreadable. -/
  | unreadable
  /-- The bytes. -/
  | bytes (content : List Byte)
  deriving DecidableEq, Repr

/-- The arguments of a launch, with the defaults of spec/00_scope.md R8. -/
structure LaunchArgs where
  /-- `IMEM`, "raw binary, big-endian 32-bit-aligned instruction words" (R234). -/
  imem : InputBuffer
  /-- `DMEM_SIZE`. -/
  dmemSize : Nat := 1024
  /-- `DSEED`, optional. -/
  dseed : InputBuffer := .notGiven
  /-- `R0_HARDWIRED`. -/
  r0Hardwired : Bool := false
  /-- `INIT_REGS`. -/
  initRegs : Registers := Registers.zero
  /-- `HAZ`. -/
  haz : HazardCounts := {}
  deriving DecidableEq, Repr

/-- The state of an accepted launch before `running` is set (R44, R230). -/
def freshState (a : LaunchArgs) (imem dseed : List Byte) : State :=
  { params := { imemLen := imem.length, dmemSize := a.dmemSize, r0Hardwired := a.r0Hardwired,
                haz := a.haz }
    pc := 0#32
    regs := a.initRegs
    imem := memoryOfBytes 0 imem
    dmem := memoryOfBytes 0 dseed
    bubblesRemaining := 0#8
    running := true
    cycleCount := 0
    instructionCount := 0
    ops := OpCounters.zero
    latches := Latches.reset
    fault := none }

/-- Accept the buffers or refuse them (R233), then reset, with `running` set by the halt rule (R230,
R153). `DMEM_SIZE` = 0 is accepted. Which error is reported when both hold, the length before the seed, is
DESIGN CHOICE: log entry 19. -/
def launchWith (a : LaunchArgs) (imem dseed : List Byte) : Host.Outcome State Fault Refusal :=
  if imem.length % 4 ≠ 0 then .refused (.imemLengthNotWords imem.length)
  else if dseed.length > a.dmemSize then .refused (.seedTooLong dseed.length a.dmemSize)
  else .next (settleRunning (freshState a imem dseed))

/-- A launch (R233, R234, R236): the state before the first cycle, or the configuration error that
refuses it. Which error is reported when several hold is DESIGN CHOICE (log entry 19): a missing `IMEM`,
then a missing `DSEED`, then those of `launchWith`. -/
def launch (a : LaunchArgs) : Host.Outcome State Fault Refusal :=
  match a.imem, a.dseed with
  | .bytes imem, .bytes dseed => launchWith a imem dseed
  | .bytes imem, .notGiven => launchWith a imem []
  | .bytes _, .unreadable => .refused (.missingInput .dseed)
  | _, _ => .refused (.missingInput .imem)

/-- What the host sees after each completed cycle (R43, R216, D25). -/
structure Snapshot where
  latches : Latches
  regs : Registers
  pc : Word
  cycleCount : Nat
  instructionCount : Nat
  ops : OpCounters
  bubblesRemaining : BitVec 8
  dmem : Memory
  running : Bool
  fault : Option FaultRecord
  deriving DecidableEq, Repr

/-- The observation interface; it changes nothing (R216). -/
def observe (s : State) : Snapshot :=
  { latches := s.latches, regs := s.regs, pc := s.pc, cycleCount := s.cycleCount,
    instructionCount := s.instructionCount, ops := s.ops, bubblesRemaining := s.bubblesRemaining,
    dmem := s.dmem, running := s.running, fault := s.fault }

end Sys2Proof.Machine
end

