-- ==== Sys2Proof/Safety.lean ====
section
/-! DEFINITION. The terms claims about runs are stated in: how a run ends, when a cycle completes, and
the invariants of the machine. -/

namespace Sys2Proof.Machine

/-! ### Runs -/

/-- How a run stands (spec/60_exceptions.md R218). A run the host stops is one still `active`. -/
inductive RunStatus where
  | active
  | haltedClean
  | faulted (r : FaultRecord)
  deriving DecidableEq, Repr

/-- The status of a run in a state (R218). -/
def State.status (s : State) : RunStatus :=
  match s.fault with
  | some r => .faulted r
  | none => if s.running then .active else .haltedClean

/-- The core takes the next cycle (spec/42_pipeline.md R125). -/
abbrev State.Live (s : State) : Prop := s.running = true ∧ s.fault = none

/-- The step from `s` is a completed cycle that leaves `t`: neither a stopped core nor a faulting cycle
counts a cycle (R151, R152). -/
def CycleCompletes (s t : State) : Prop := step s = .next t ∧ t.cycleCount = s.cycleCount + 1

/-! ### What a cycle needs to complete -/

/-- The fetch of this cycle has a defined outcome (spec/20_memory.md R47, R48). -/
def FetchDefined (s : State) : Prop :=
  s.bubblesRemaining = 0#8 →
    (redirect s.pc s.latches.exMem).toNat % 4 = 0 ∧ s.params.imemLen % 4 = 0

/-- The data access waiting in EX/MEM, if there is one, passes the checks (R52). -/
def AccessAllowed (s : State) : Prop :=
  (s.latches.exMem.memRead = true ∨ s.latches.exMem.memWrite = true) →
    s.latches.exMem.aluResult.toNat % 4 = 0 ∧
    s.latches.exMem.aluResult.toNat + 4 ≤ s.params.dmemSize

/-- The registers as the ID stage of this cycle reads them, after WB (R129). -/
def regsInDecode (s : State) : Registers :=
  writeBack s.params.r0Hardwired s.regs s.latches.memWb

/-- `x[i]` as the ID stage of this cycle reads it. -/
def operandInDecode (s : State) (i : RegNum) : Word :=
  readReg s.params.r0Hardwired (regsInDecode s) i

/-- The data check of this cycle on a source set (spec/41_hazard_unit.md R111). -/
def dataStall (s : State) (srcs : List RegNum) : BitVec 8 :=
  dataHazard s.params.haz srcs s.latches

/-! ### Invariants -/

/-- The largest bubble count of the table. -/
def largestCount (h : HazardCounts) : BitVec 8 :=
  maxCount (maxCount h.exMem h.memWb) (maxCount h.load h.ctrl)

/-- The ID/EX latch holds the fields and the control row of some decodable word (R144, R145). -/
def LatchedFromWord (e : IdEx) : Prop :=
  ∃ w : Word, controlUnit w = some e.ctrl ∧ e.rt = rtField w ∧ e.rd = rdField w ∧
    e.imm = sext16 (imm16Field w) ∧ e.addr = addr26Field w

/-- What every state of a run satisfies. -/
structure State.Inv (s : State) : Prop where
  /-- `pc` is a multiple of 4 (spec/10_state.md R26), and so is every latched address. -/
  pc_aligned : s.pc.toNat % 4 = 0
  ifId_pc_aligned : s.latches.ifId.pc.toNat % 4 = 0
  idEx_pc_aligned : s.latches.idEx.pc.toNat % 4 = 0
  branchAddr_aligned : s.latches.exMem.branchAddr.toNat % 4 = 0
  jumpAddr_aligned : s.latches.exMem.jumpAddr.toNat % 4 = 0
  /-- Instruction memory is whole words, in canonical form, inside its length (R48). -/
  imem_words : s.params.imemLen % 4 = 0
  imem_wf : Memory.wf s.imem = true
  imem_within : Memory.within s.imem s.params.imemLen = true
  /-- Data memory is in canonical form, inside its size (R49). -/
  dmem_wf : Memory.wf s.dmem = true
  dmem_within : Memory.within s.dmem s.params.dmemSize = true
  /-- ID/EX holds a decodable word's fields (R145). -/
  idEx_fromWord : LatchedFromWord s.latches.idEx
  /-- No latch asks for a read and a write at once (R148). -/
  exMem_oneAccess : ¬(s.latches.exMem.memRead = true ∧ s.latches.exMem.memWrite = true)
  /-- A word waiting in IF/ID has been counted, so the count never goes below zero (R38). -/
  inst_counted : s.latches.ifId.inst ≠ 0#32 → 0 < s.instructionCount
  /-- The stall count is at most the largest of the table (R35). -/
  bubbles_bounded : s.bubblesRemaining ≤ largestCount s.params.haz
  /-- The core runs exactly while it is neither halted nor faulted (R36, R153). -/
  running_iff : s.running = (decide (s.fault = none) && !halted s)

/-- The word in IF/ID, unless it is a bubble or a `nop`, is the word of instruction memory at the
address four below the latched one (R133, R134). -/
def InstFromMemory (s : State) : Prop :=
  s.latches.ifId.inst ≠ 0#32 →
    fetchWord s.imem s.params.imemLen (s.latches.ifId.pc - 4#32) = .ok s.latches.ifId.inst

/-- Only the instruction in IF/ID is in flight, and nothing follows it: the rest of the pipeline holds
bubbles, no stall is pending, and every later fetch lies past the end of instruction memory and short
of the wrap of `pc`. -/
structure Alone (s : State) : Prop where
  live : s.Live
  no_stall : s.bubblesRemaining = 0#8
  idEx_bubble : s.latches.idEx.ctrl = Control.nopRow ∧ s.latches.idEx.imm = 0#32
  exMem_bubble : s.latches.exMem.branch = false ∧ s.latches.exMem.jump = false ∧
    s.latches.exMem.memRead = false ∧ s.latches.exMem.memWrite = false ∧
    s.latches.exMem.regWrite = false
  memWb_bubble : s.latches.memWb.regWrite = false
  pc_aligned : s.pc.toNat % 4 = 0
  imem_words : s.params.imemLen % 4 = 0
  past_end : s.params.imemLen ≤ s.pc.toNat
  no_wrap : s.pc.toNat + 16 < 2 ^ 32

/-! ### The R-format operations by mnemonic -/

/-- The R-format instruction of a mnemonic. -/
def rInstr (op : AluMnemonic) (rd rs rt : RegNum) (shamt : BitVec 5) : Instr :=
  match op with
  | .add => .add rd rs rt shamt
  | .sub => .sub rd rs rt shamt
  | .and => .and rd rs rt shamt
  | .or => .or rd rs rt shamt
  | .slt => .slt rd rs rt shamt

/-- The value an R-format operation writes, as its rule states it (spec/43_alu_ops.md R161 to R165). -/
def rValue (op : AluMnemonic) (a b : Word) : Word :=
  match op with
  | .add => a + b
  | .sub => a - b
  | .and => a &&& b
  | .or => a ||| b
  | .slt => if a.toNat < b.toNat then 1#32 else 0#32

/-- The counter an R-format operation increments (R161 to R165). -/
def rCount (op : AluMnemonic) (c : OpCounters) : OpCounters :=
  match op with
  | .add => { c with add := c.add + 1 }
  | .sub => { c with sub := c.sub + 1 }
  | .and => { c with and := c.and + 1 }
  | .or => { c with or := c.or + 1 }
  | .slt => { c with slt := c.slt + 1 }

/-- The instruction with its `shamt` bits cleared, which is what its disassembly assembles to. -/
def clearShamt : Instr → Instr
  | .add rd rs rt _ => .add rd rs rt 0#5
  | .sub rd rs rt _ => .sub rd rs rt 0#5
  | .and rd rs rt _ => .and rd rs rt 0#5
  | .or rd rs rt _ => .or rd rs rt 0#5
  | .slt rd rs rt _ => .slt rd rs rt 0#5
  | i => i

/-- The word the ID stage decodes in this cycle: the one in IF/ID, or 0 if a data stall cancels it
(R141, R144). -/
def decodedWord (s : State) : Word :=
  if dataStall s (sources s.latches.ifId.inst) = 0#8 then s.latches.ifId.inst else 0#32

/-- A taken branch or a jump stands in ID/EX: IF would redirect in the cycle after its EX (R132). -/
def redirectComing (e : IdEx) : Prop :=
  (e.ctrl.branch = true ∧ latchedAluResult e = 0#32) ∨ e.ctrl.jump = true

/-- Where that redirect goes (R104, R132). -/
def redirectTarget (e : IdEx) : Word :=
  if e.ctrl.branch = true ∧ latchedAluResult e = 0#32 then branchAddr e.pc e.imm
  else jumpAddr e.pc e.addr

end Sys2Proof.Machine
end

