-- ==== Sys2Proof/Certificates/Slice0/Obligations.lean ====
section
/-! DEFINITION. The statements for the provers. `CycleCompletes s t` is one completed clock cycle; a chain
of them is a run of neighbouring cycles in any context. `exec i s` is the cycle in which ID decodes `i`,
which is the model's reading (log entry 1). Log entry numbers are those of notes/assumptions/. "Derived by
the spec" marks a rule that the spec itself infers from others. -/

open Sys2Proof Sys2Proof.Machine

/-! ### Encoding -/

/-- Decoding an encoded instruction gives it back, as a word and as four big-endian bytes before any rest
(R65 to R71). -/
def Obligations.DecodeOfEncodeIsIdentity : Prop :=
  (∀ i : Instr, decode (encode i) = .ok i) ∧
  ∀ (i : Instr) (rest : List Byte),
    decodeBytes (bytesOfWord (encode i) ++ rest) = .ok (i, rest)

/-- Encoding a decoded word gives the word back: no bit of a decodable word is lost (R66 to R71). -/
def Obligations.EncodeOfDecodeIsIdentity : Prop :=
  ∀ (w : Word) (i : Instr), decode w = .ok i → encode i = w

/-- A word is undecodable exactly when it matches no row of the opcode table, and a decoded word matches
the row of its instruction (R70, R71, R77). -/
def Obligations.DecodableIsInTheTable : Prop :=
  (∀ w : Word, (∃ e, decode w = .error e) ↔
    ∀ i : Instr, w &&& (matchMask i).2 ≠ (matchMask i).1) ∧
  ∀ (w : Word) (i : Instr), decode w = .ok i → w &&& (matchMask i).2 = (matchMask i).1

/-- The words of the spec's own list of encodings decode as it says, all fifteen of them
(spec/95_test_vectors.md 2.1). -/
def Obligations.ListedWordsDecode : Prop :=
  decode 0x00430820#32 = .ok (.add 1 2 3 0) ∧
  decode 0x00430960#32 = .ok (.add 1 2 3 5) ∧
  decode 0x03DDF82A#32 = .ok (.slt 31 30 29 0) ∧
  decode 0x00000024#32 = .ok (.and 0 0 0 0) ∧
  decode 0x8C41FFFF#32 = .ok (.lw 1 2 0xFFFF) ∧
  decode 0xAFFF8000#32 = .ok (.sw 31 31 0x8000) ∧
  decode 0x1022FFFF#32 = .ok (.beq 1 2 0xFFFF) ∧
  decode 0x10227FFF#32 = .ok (.beq 1 2 0x7FFF) ∧
  decode 0x10228000#32 = .ok (.beq 1 2 0x8000) ∧
  decode 0x08000000#32 = .ok (.j 0) ∧
  decode 0x0BFFFFFF#32 = .ok (.j 0x3FFFFFF) ∧
  decode 0x00000000#32 = .ok .nop ∧
  decode 0x00000001#32 = .error (.unknownFunct 1) ∧
  decode 0x00011080#32 = .error (.unknownFunct 0) ∧
  decode 0xFC000000#32 = .error (.unknownOpcode 0x3F)

/-- The shift-amount bits of an R-format word change nothing but the latched immediate and target fields,
and neither the ALU operation, nor its result, nor the destination read them (R72). -/
def Obligations.ShamtTakesNoPart : Prop :=
  ∀ (op : AluMnemonic) (rd rs rt : RegNum) (shamt : BitVec 5) (s t : State),
    exec (rInstr op rd rs rt shamt) s = .next t →
    ∃ t', exec (rInstr op rd rs rt 0#5) s = .next t' ∧
      t' = { t with latches := { t.latches with idEx := { t.latches.idEx with
              imm := t'.latches.idEx.imm, addr := t'.latches.idEx.addr } } } ∧
      latchedAluCode t'.latches.idEx = latchedAluCode t.latches.idEx ∧
      latchedAluResult t'.latches.idEx = latchedAluResult t.latches.idEx ∧
      destination t'.latches.idEx = destination t.latches.idEx

/-- The text a word disassembles to assembles again, at any address and with any labels, to that word with
the `shamt` bits cleared, and so does the parsed statement; an undecodable word has no text (R79 to R84).
That a number is read as a number even where a label has that name, and that a `+` sign is accepted, are
the model's choice, which R79 to R84 do not give (log entry 14, DESIGN CHOICE). Words of R84 and R79 fix
the text itself: the printed forms, operands with no space after the comma, and a hexadecimal number; the
line with the signed number `+4` rests on log entry 14. -/
def Obligations.AssembleOfDisassemble : Prop :=
  (∀ (labels : Labels) (a w : Word) (i : Instr), decode w = .ok i →
    ∃ text, decodeToText w = .ok text ∧
      assembleLine labels a text = some (encode (clearShamt i))) ∧
  (∀ (a : Word) (i : Instr), assemble a (toSource i) = some (clearShamt i)) ∧
  (∀ (w : Word) (e : Rejection), decode w = .error e → decodeToText w = .error e) ∧
  decodeToText 0x00000000#32 = .ok "nop".toList ∧
  decodeToText 0x00211020#32 = .ok "add $2, $1, $1".toList ∧
  decodeToText 0x8C010000#32 = .ok "lw $1, 0($0)".toList ∧
  decodeToText 0xAFFF8000#32 = .ok "sw $31, -32768($31)".toList ∧
  decodeToText 0x10230006#32 = .ok "beq $1, $3, 6".toList ∧
  decodeToText 0x08000004#32 = .ok "j 4".toList ∧
  assembleLine [] 0#32 "add $1,$2,$3".toList = some 0x00430820#32 ∧
  assembleLine [] 0#32 "lw $1, 0x10($0)".toList = some 0x8C010010#32 ∧
  assembleLine [] 0#32 "sw $1,+4($0)".toList = some 0xAC010004#32 ∧
  assembleLine [] 0#32 "add $32, $0, $0".toList = none

/-- A branch or jump assembled to a label goes to the label: the target address that EX computes from the
assembled field is the label's (R82, R104). -/
def Obligations.LabelsReachTheirAddress : Prop :=
  (∀ (a label : Word) (rs rt : Nat) (i : Instr), assemble a (.beqTo rs rt label) = some i →
    ∃ (x y : RegNum) (imm : BitVec 16), i = .beq x y imm ∧
      branchAddr (a + 4#32) (sext16 imm) = label) ∧
  ∀ (a label : Word) (i : Instr), assemble a (.jTo label) = some i →
    ∃ n : BitVec 26, i = .j n ∧ jumpAddr (a + 4#32) n = label

/-! ### Control unit, ALU control, ALU -/

/-- The word 0 decodes to the nop bundle (R92). -/
def Obligations.ZeroWordGivesNopBundle : Prop :=
  controlUnit 0x00000000#32 = some
    { regDst := false, aluOp := 0b10#2, aluSrc := false, branch := false, jump := false,
      memRead := false, memWrite := false, regWrite := false, memToReg := false }

/-- The control table: the row of every decodable word, by its class, and none for an undecodable one
(R91, R93). -/
def Obligations.ControlTableRows : Prop :=
  ∀ w : Word, controlUnit w = match decode w with
    | .ok .nop =>
      some
        { regDst := false, aluOp := 0b10#2, aluSrc := false, branch := false,
          jump := false, memRead := false, memWrite := false, regWrite := false, memToReg := false }
    | .ok (.add ..) | .ok (.sub ..) | .ok (.and ..) | .ok (.or ..) | .ok (.slt ..) =>
      some
        { regDst := true, aluOp := 0b10#2, aluSrc := false, branch := false,
          jump := false, memRead := false, memWrite := false, regWrite := true, memToReg := false }
    | .ok (.lw ..) =>
      some
        { regDst := false, aluOp := 0b00#2, aluSrc := true, branch := false,
          jump := false, memRead := true, memWrite := false, regWrite := true, memToReg := true }
    | .ok (.sw ..) =>
      some
        { regDst := false, aluOp := 0b00#2, aluSrc := true, branch := false,
          jump := false, memRead := false, memWrite := true, regWrite := false, memToReg := false }
    | .ok (.beq ..) =>
      some
        { regDst := false, aluOp := 0b01#2, aluSrc := false, branch := true,
          jump := false, memRead := false, memWrite := false, regWrite := false, memToReg := false }
    | .ok (.j ..) =>
      some
        { regDst := false, aluOp := 0b10#2, aluSrc := false, branch := false,
          jump := true, memRead := false, memWrite := false, regWrite := false, memToReg := false }
    | .error _ => none

/-- The ALU control table (R97). -/
def Obligations.AluControlTable : Prop :=
  ∀ f : BitVec 6,
    aluControl 0b00#2 f = some .add ∧ aluControl 0b01#2 f = some .sub ∧
    aluControl 0b11#2 f = none ∧
    aluControl 0b10#2 f =
      (if f = 0x20#6 then some .add else if f = 0x22#6 then some .sub
       else if f = 0x24#6 then some .and else if f = 0x25#6 then some .or
       else if f = 0x2A#6 then some .slt else none)

/-- `slt` compares unsigned, with the spec's two instances (R101). -/
def Obligations.SltComparesUnsigned : Prop :=
  (∀ a b : Word, alu (some .slt) a b = if a.toNat < b.toNat then 1#32 else 0#32) ∧
  alu (some .slt) 0xFFFFFFFD#32 5#32 = 0#32 ∧
  alu (some .slt) 1#32 0x80000000#32 = 1#32

/-- Addition and subtraction wrap modulo 2^32, read as unsigned or as signed numbers alike (R99, R100). -/
def Obligations.AddAndSubWrap : Prop :=
  ∀ a b : Word,
    (alu (some .add) a b).toNat = (a.toNat + b.toNat) % 2 ^ 32 ∧
    ((alu (some .sub) a b).toNat : Int) = ((a.toNat : Int) - b.toNat) % 2 ^ 32 ∧
    alu (some .add) a b = BitVec.ofInt 32 (a.toInt + b.toInt) ∧
    alu (some .sub) a b = BitVec.ofInt 32 (a.toInt - b.toInt)

/-- In every completed cycle the latched zero flag says whether the latched result is 0, and a difference
is 0 exactly when the operands are equal (R102). The whole EX/MEM latch is what EX makes of ID/EX (R146;
the form of the jump target: log entry 9), and the whole MEM/WB latch is what MEM makes of EX/MEM, with
`read_data` 0 when it does not read (R150). -/
def Obligations.ZeroFlagFollowsResult : Prop :=
  (∀ s t : State, CycleCompletes s t →
    (t.latches.exMem.zeroFlag = true ↔ t.latches.exMem.aluResult = 0#32) ∧
    (let e := s.latches.idEx
     t.latches.exMem =
      { branch := e.ctrl.branch
        jump := e.ctrl.jump
        memRead := e.ctrl.memRead
        memWrite := e.ctrl.memWrite
        regWrite := e.ctrl.regWrite
        memToReg := e.ctrl.memToReg
        zeroFlag := decide (latchedAluResult e = 0#32)
        aluResult := alu (aluControl e.ctrl.aluOp (e.imm.extractLsb' 0 6)) e.rsVal
          (if e.ctrl.aluSrc = true then e.imm else e.rtVal)
        branchAddr := e.pc + (e.imm <<< 2)
        jumpAddr := (e.pc.extractLsb' 28 4 ++ e.addr ++ 0#2).cast rfl
        storeVal := e.rtVal
        reg := if e.ctrl.regDst = true then e.rd else e.rt }) ∧
    (let m := s.latches.exMem
     t.latches.memWb =
      { regWrite := m.regWrite
        memToReg := m.memToReg
        readData := if m.memRead = true then readWord s.dmem m.aluResult.toNat else 0#32
        aluResult := m.aluResult
        reg := m.reg })) ∧
  ∀ a b : Word, alu (some .sub) a b = 0#32 ↔ a = b

/-- Both target addresses that EX computes are multiples of 4 when the latched pc is (R104; the form of
the jump target: log entry 9). -/
def Obligations.TargetsAreAligned : Prop :=
  ∀ e : IdEx, e.pc.toNat % 4 = 0 →
    (executeStage e).branchAddr.toNat % 4 = 0 ∧ (executeStage e).jumpAddr.toNat % 4 = 0

/-! ### Hazard unit -/

/-- The hazard unit. The source registers of every word, by its class (R112). Under any table `HAZ`, the
data check is the largest of the counts whose conditions hold (R111), the control check counts for a `beq`
or a `j` only (R113), and the unit answers the larger of the two (R110). Then the counts under the default
table (R116, derived by the spec from R111), with the source's worked example: a `lw $1` in ID/EX and `add
$2, $1, $1` in IF/ID. -/
def Obligations.DefaultHazardCounts : Prop :=
  (∀ (w : Word) (r : RegNum), r ∈ sources w ↔
    match decode w with
    | .ok (.add ..) | .ok (.sub ..) | .ok (.and ..) | .ok (.or ..) | .ok (.slt ..) | .ok (.sw ..)
    | .ok (.beq ..) => r = w.extractLsb' 21 5 ∨ r = w.extractLsb' 16 5
    | .ok (.lw ..) => r = w.extractLsb' 21 5
    | .ok (.j ..) | .ok .nop | .error _ => False) ∧
  (∀ (haz : HazardCounts) (srcs : List RegNum) (p : Latches),
    (dataHazard haz srcs p).toNat =
      max (max (if p.exMem.regWrite = true ∧ p.exMem.reg ∈ srcs then haz.exMem.toNat else 0)
        (if p.memWb.regWrite = true ∧ p.memWb.reg ∈ srcs then haz.memWb.toNat else 0))
        (if p.idEx.ctrl.memRead = true ∧ p.idEx.rt ∈ srcs then haz.load.toNat else 0)) ∧
  (∀ (haz : HazardCounts) (w : Word) (p : Latches),
    (detected haz w p).toNat =
      max (dataHazard haz (sources w) p).toNat
        (if w ≠ 0#32 ∧ (w.extractLsb' 26 6 = 0x04#6 ∨ w.extractLsb' 26 6 = 0x02#6) then haz.ctrl.toNat
         else 0)) ∧
  (∀ (w : Word) (p : Latches),
    let two := (p.exMem.regWrite = true ∧ p.exMem.reg ∈ sources w) ∨
      (p.idEx.ctrl.memRead = true ∧ p.idEx.rt ∈ sources w)
    let one := p.memWb.regWrite = true ∧ p.memWb.reg ∈ sources w
    (detected {} w p = 0#8 ∨ detected {} w p = 1#8 ∨ detected {} w p = 2#8) ∧
    (two → dataHazard {} (sources w) p = 2#8) ∧
    (¬two → one → dataHazard {} (sources w) p = 1#8) ∧
    (¬two → ¬one → dataHazard {} (sources w) p = 0#8)) ∧
  ∀ p : Latches, p.idEx.ctrl = Control.lwRow → p.idEx.rt = 1#5 →
    detected {} 0x00211020#32 p = 2#8

/-- A non-load in ID/EX is not looked at: under any counts the data check gives the same whatever it is
(R114, derived by the spec from R111). -/
def Obligations.NonLoadInIdExIsNotCompared : Prop :=
  ∀ (haz : HazardCounts) (srcs : List RegNum) (p q : Latches),
    p.exMem = q.exMem → p.memWb = q.memWb →
    p.idEx.ctrl.memRead = false → q.idEx.ctrl.memRead = false →
    dataHazard haz srcs p = dataHazard haz srcs q

/-! ### Memories and registers -/

/-- A stored word lies big-endian in its four bytes and nowhere else (R51). -/
def Obligations.StoredWordIsBigEndian : Prop :=
  ∀ (m : Memory) (a : Nat) (v : Word), Memory.wf m = true →
    readByte (writeWord m a v) a = v.extractLsb' 24 8 ∧
    readByte (writeWord m a v) (a + 1) = v.extractLsb' 16 8 ∧
    readByte (writeWord m a v) (a + 2) = v.extractLsb' 8 8 ∧
    readByte (writeWord m a v) (a + 3) = v.extractLsb' 0 8 ∧
    (∀ x, x < a ∨ a + 4 ≤ x → readByte (writeWord m a v) x = readByte m x) ∧
    readWord (writeWord m a v) a = v

/-- Fetch at a word-aligned address: the big-endian word inside instruction memory, the `nop` word at or
past its end (R47). That a misaligned or partial fetch stops is the model's choice (log entry 5). -/
def Obligations.FetchGivesWordOrNop : Prop :=
  ∀ (imem : Memory) (len : Nat) (a : Word),
    (a.toNat % 4 = 0 → a.toNat + 4 ≤ len →
      fetchWord imem len a = .ok ((readByte imem a.toNat ++ readByte imem (a.toNat + 1)
        ++ readByte imem (a.toNat + 2) ++ readByte imem (a.toNat + 3)).cast rfl)) ∧
    (a.toNat % 4 = 0 → len ≤ a.toNat → fetchWord imem len a = .ok 0#32) ∧
    (a.toNat % 4 ≠ 0 ∨ (a.toNat < len ∧ len < a.toNat + 4) →
      fetchWord imem len a = .error (.undefinedFetch a))

/-- Register writes: the operation sets one register, but register 0 under the hardwired policy, and in a
completed cycle the register file changes only by WB's write, at most one register (R23). -/
def Obligations.OnlyWriteBackWritesRegisters : Prop :=
  (∀ (r0 : Bool) (regs : Registers) (i j : RegNum) (v : Word),
    (writeReg r0 regs i v)[j.toNat] =
      if j = i ∧ ¬(r0 = true ∧ i = 0#5) then v else regs[j.toNat]) ∧
  ∀ s t : State, CycleCompletes s t → ∀ j : RegNum,
    t.regs[j.toNat] =
      if s.latches.memWb.regWrite = true ∧ j = s.latches.memWb.reg ∧
          ¬(s.params.r0Hardwired = true ∧ j = 0#5) then
        (if s.latches.memWb.memToReg = true then s.latches.memWb.readData
         else s.latches.memWb.aluResult)
      else s.regs[j.toNat]

/-- In a completed cycle data memory changes only in the four bytes that a store in EX/MEM writes at its
ALU result, and instruction memory, the launch parameters and the fault record stay (R45, R148, R151). -/
def Obligations.OnlyStoresChangeDataMemory : Prop :=
  ∀ s t : State, CycleCompletes s t → Memory.wf s.dmem = true →
    (∀ x : Nat, readByte t.dmem x =
      if s.latches.exMem.memWrite = true ∧ s.latches.exMem.aluResult.toNat ≤ x ∧
          x < s.latches.exMem.aluResult.toNat + 4 then
        s.latches.exMem.storeVal.extractLsb' (24 - 8 * (x - s.latches.exMem.aluResult.toNat)) 8
      else readByte s.dmem x) ∧
    t.imem = s.imem ∧ t.params = s.params ∧ t.fault = s.fault

/-- No run changes instruction memory, so no store is ever seen by a fetch (R63). -/
def Obligations.NoStoreIsSeenByFetch : Prop :=
  ∀ (k : Nat) (s t : State), Sys2Proof.core.run k s = .next t →
    t.imem = s.imem ∧ t.params = s.params ∧
    ∀ a : Word, fetchWord t.imem t.params.imemLen a = fetchWord s.imem s.params.imemLen a

/-- The operation counters after a completed cycle: the one of the code in EX, and those of the access in
MEM (R39, R103, R149). -/
def Obligations.CountersCountTheStages : Prop :=
  ∀ s t : State, CycleCompletes s t →
    t.ops =
      { add := s.ops.add + (if latchedAluCode s.latches.idEx = some .add then 1 else 0)
        sub := s.ops.sub + (if latchedAluCode s.latches.idEx = some .sub then 1 else 0)
        and := s.ops.and + (if latchedAluCode s.latches.idEx = some .and then 1 else 0)
        or := s.ops.or + (if latchedAluCode s.latches.idEx = some .or then 1 else 0)
        slt := s.ops.slt + (if latchedAluCode s.latches.idEx = some .slt then 1 else 0)
        memRead := s.ops.memRead + (if s.latches.exMem.memRead = true then 1 else 0)
        memWrite := s.ops.memWrite + (if s.latches.exMem.memWrite = true then 1 else 0) }

/-- The instruction count goes up by one for a fetch and down by one for each fetched word a data stall
cancels, and never below zero (R38; the last clause is derived by the spec). -/
def Obligations.InstructionCountIsExact : Prop :=
  ∀ s t : State, CycleCompletes s t →
    (s.latches.ifId.inst ≠ 0#32 → 0 < s.instructionCount) →
    let fetched : Int := if s.bubblesRemaining = 0#8 then 1 else 0
    (t.instructionCount : Int) = s.instructionCount + fetched -
      (if dataStall s (sources s.latches.ifId.inst) = 0#8 then 0 else 1 + fetched)

/-! ### The cycle -/

/-- When the word in IF/ID decodes, the step of a live core is the meaning of that instruction. -/
def Obligations.StepRunsTheDecodedInstruction : Prop :=
  ∀ (s : State) (i : Instr), s.Live → decode s.latches.ifId.inst = .ok i → step s = exec i s

/-- What IF leaves in a completed cycle in which no data stall squashes it. With no stall pending, the
word it fetches, with the address after it latched, is what the next step of a live core runs (R133,
R134). With a stall pending it injects a bubble, keeps `pc` and the instruction count and spends one
bubble, whatever redirect waits in EX/MEM (R131). -/
def Obligations.FetchedWordRunsNext : Prop :=
  (∀ (s t : State) (w : Word) (i : Instr), CycleCompletes s t → s.bubblesRemaining = 0#8 →
    dataStall s (sources s.latches.ifId.inst) = 0#8 →
    fetchWord s.imem s.params.imemLen (redirect s.pc s.latches.exMem) = .ok w →
    decode w = .ok i → t.Live →
    t.latches.ifId = { inst := w, pc := redirect s.pc s.latches.exMem + 4#32 } ∧
    t.pc = redirect s.pc s.latches.exMem + 4#32 ∧ step t = exec i t) ∧
  ∀ s t : State, CycleCompletes s t → s.bubblesRemaining ≠ 0#8 →
    dataStall s (sources s.latches.ifId.inst) = 0#8 →
    t.latches.ifId = { inst := 0#32, pc := s.pc } ∧ t.pc = s.pc ∧
    t.instructionCount = s.instructionCount ∧
    t.bubblesRemaining = maxCount (s.bubblesRemaining - 1#8)
      (if isTransfer s.latches.ifId.inst = true then s.params.haz.ctrl else 0#8)

/-- The model's entry point for one word: the word is loaded at `pc`, stands in IF/ID as the fetch leaves
it, and the very next step runs it (log entry 2). -/
def Obligations.PlacedWordRunsNext : Prop :=
  ∀ (s : State) (nbits w : Nat) (i : Instr), decode (tableWord nbits w) = .ok i →
    Memory.wf s.imem = true → s.pc.toNat % 4 = 0 →
    step (s.withFetchWord nbits w) = exec i (s.withFetchWord nbits w) ∧
    fetchWord (s.withFetchWord nbits w).imem (s.withFetchWord nbits w).params.imemLen s.pc
      = .ok (tableWord nbits w)

/-- The meanings agree with the control table, the source sets and the control check: the step of a live
core on a decodable word is the cycle of R125 with `controlUnit`, `sources` and `isTransfer` of the word
itself. -/
def Obligations.StepIsTheTableDrivenCycle : Prop :=
  ∀ (s : State) (c : Control), s.Live → controlUnit s.latches.ifId.inst = some c →
    step s = decodeCycle c (sources s.latches.ifId.inst) (isTransfer s.latches.ifId.inst)
      s.latches.ifId.inst s

/-- What ID latches in a completed cycle, for the word it decodes, a cancelled one being 0 (R145). -/
def Obligations.DecodeLatchesFields : Prop :=
  ∀ (s t : State) (c : Control), CycleCompletes s t → controlUnit (decodedWord s) = some c →
    t.latches.idEx =
      { pc := if dataStall s (sources s.latches.ifId.inst) = 0#8 then s.latches.ifId.pc
              else s.latches.ifId.pc - 4#32
        ctrl := c
        rsVal := operandInDecode s ((decodedWord s).extractLsb' 21 5)
        rtVal := operandInDecode s ((decodedWord s).extractLsb' 16 5)
        rt := (decodedWord s).extractLsb' 16 5
        rd := (decodedWord s).extractLsb' 11 5
        imm := ((decodedWord s).extractLsb' 0 16).signExtend 32
        addr := (decodedWord s).extractLsb' 0 26 }

/-- A register written by WB is read with its new value by ID in the same cycle (R129). -/
def Obligations.WriteBackIsReadInTheSameCycle : Prop :=
  ∀ s t : State, CycleCompletes s t → s.latches.memWb.regWrite = true →
    ¬(s.params.r0Hardwired = true ∧ s.latches.memWb.reg = 0#5) →
    (rsField (decodedWord s) = s.latches.memWb.reg →
      t.latches.idEx.rsVal = writeBackValue s.latches.memWb) ∧
    (rtField (decodedWord s) = s.latches.memWb.reg →
      t.latches.idEx.rtVal = writeBackValue s.latches.memWb)

/-- A data stall cancels the word: a bubble goes down, `pc` and IF/ID go back to its address, and one
bubble of the stall is spent (R141). -/
def Obligations.DataStallCancelsTheWord : Prop :=
  ∀ s t : State, CycleCompletes s t →
    dataStall s (sources s.latches.ifId.inst) ≠ 0#8 →
    t.pc = s.latches.ifId.pc - 4#32 ∧
    t.latches.ifId = { inst := 0#32, pc := s.latches.ifId.pc - 4#32 } ∧
    t.latches.idEx.ctrl = Control.nopRow ∧ t.latches.idEx.pc = s.latches.ifId.pc - 4#32 ∧
    t.bubblesRemaining =
      maxCount (maxCount (if s.bubblesRemaining = 0#8 then 0#8 else s.bubblesRemaining - 1#8)
        (dataStall s (sources s.latches.ifId.inst)))
        (if isTransfer s.latches.ifId.inst then s.params.haz.ctrl else 0#8) - 1#8

/-- After a data stall under the default counts the cancelled word is in IF/ID again: two cycles later for
a count of 1 with no redirect coming, three for a count of 2 (R141). -/
def Obligations.CancelledWordReturns : Prop :=
  ∀ s t1 t2 : State, InstFromMemory s → s.params.haz = {} → s.bubblesRemaining ≤ 1#8 →
    CycleCompletes s t1 → CycleCompletes t1 t2 →
    (dataStall s (sources s.latches.ifId.inst) = 1#8 → ¬redirectComing s.latches.idEx →
      t2.latches.ifId = s.latches.ifId) ∧
    ∀ t3 : State, CycleCompletes t2 t3 →
      dataStall s (sources s.latches.ifId.inst) = 2#8 → t3.latches.ifId = s.latches.ifId

/-- A `beq` or `j` without a data hazard is never cancelled by its own control hazard, nor is the word
fetched after it: the transfer enters ID/EX, its delay slot enters IF/ID, and a stall is pending (R142;
R182, derived by the spec). -/
def Obligations.ControlStallKeepsTheDelaySlot : Prop :=
  ∀ s t : State, CycleCompletes s t → s.bubblesRemaining = 0#8 → s.params.haz = {} →
    isTransfer s.latches.ifId.inst = true → dataStall s (sources s.latches.ifId.inst) = 0#8 →
    (t.latches.idEx.ctrl.branch = true ∨ t.latches.idEx.ctrl.jump = true) ∧
    t.latches.idEx.pc = s.latches.ifId.pc ∧
    fetchWord s.imem s.params.imemLen (redirect s.pc s.latches.exMem) = .ok t.latches.ifId.inst ∧
    t.latches.ifId.pc = redirect s.pc s.latches.exMem + 4#32 ∧
    t.bubblesRemaining = 1#8

/-- The delay slot decides the redirect (R183, R244, both derived by the spec), under the default counts:
with the transfer in ID/EX, taken, its stall pending and the delay slot in IF/ID, the redirect is lost if
the delay slot has a 2-bubble hazard, or is itself a transfer that no data stall cancels; otherwise the
target is fetched, and a delay slot with a 1-bubble hazard is dropped. (A transfer with a 1-bubble hazard
falls under case 2: log entry 15.) -/
def Obligations.DelaySlotDecidesRedirect : Prop :=
  ∀ s t1 t2 : State, s.params.haz = {} → s.bubblesRemaining = 1#8 →
    redirectComing s.latches.idEx → CycleCompletes s t1 → CycleCompletes t1 t2 →
    let stall := dataStall s (sources s.latches.ifId.inst)
    (stall ≠ 0#8 → t1.latches.idEx.ctrl = Control.nopRow) ∧
    (stall = 2#8 ∨ (stall = 0#8 ∧ isTransfer s.latches.ifId.inst = true) →
      t2.latches.ifId.inst = 0#32 ∧
      t2.pc = if stall = 2#8 then s.latches.ifId.pc - 4#32 else s.pc) ∧
    (stall = 1#8 ∨ (stall = 0#8 ∧ isTransfer s.latches.ifId.inst = false) →
      fetchWord s.imem s.params.imemLen (redirectTarget s.latches.idEx)
        = .ok t2.latches.ifId.inst ∧
      t2.pc = redirectTarget s.latches.idEx + 4#32)

/-- An instruction reads the old value of a register that the non-load just before it writes (R242,
derived by the spec): with no other producer of its sources in flight, the operands are those of the
register file, which that instruction has not written. -/
def Obligations.DistanceOneReadsTheOldValue : Prop :=
  ∀ s t : State, CycleCompletes s t → s.latches.idEx.ctrl.memRead = false →
    (s.latches.exMem.regWrite = true → s.latches.exMem.reg ∉ sources s.latches.ifId.inst) →
    (s.latches.memWb.regWrite = true → s.latches.memWb.reg ∉ sources s.latches.ifId.inst) →
    (rsField s.latches.ifId.inst ∈ sources s.latches.ifId.inst →
      t.latches.idEx.rsVal =
        readReg s.params.r0Hardwired s.regs (rsField s.latches.ifId.inst)) ∧
    (rtField s.latches.ifId.inst ∈ sources s.latches.ifId.inst →
      t.latches.idEx.rtVal =
        readReg s.params.r0Hardwired s.regs (rtField s.latches.ifId.inst))

/-- The instruction after a load reads the loaded word (R243): it is cancelled, comes back to IF/ID three
cycles later with no hazard and with the word in its register, and the fourth cycle decodes it and latches
the loaded word as its operand (0 for a hardwired register 0). -/
def Obligations.LoadUseReadsTheLoadedWord : Prop :=
  ∀ s t1 t2 t3 : State, InstFromMemory s → s.params.haz = {} →
    s.bubblesRemaining ≤ 1#8 → s.latches.idEx.ctrl = Control.lwRow →
    s.latches.idEx.rt ∈ sources s.latches.ifId.inst →
    CycleCompletes s t1 → CycleCompletes t1 t2 → CycleCompletes t2 t3 →
    let loaded := readWord t1.dmem (latchedAluResult s.latches.idEx).toNat
    t1.latches.idEx.ctrl = Control.nopRow ∧ t1.latches.ifId.inst = 0#32 ∧
    t3.latches.ifId = s.latches.ifId ∧
    dataStall t3 (sources t3.latches.ifId.inst) = 0#8 ∧
    t3.regs = writeReg s.params.r0Hardwired t2.regs s.latches.idEx.rt loaded ∧
    ∀ t4 : State, CycleCompletes t3 t4 →
      let value := if s.params.r0Hardwired = true ∧ s.latches.idEx.rt = 0#5 then 0#32 else loaded
      controlUnit s.latches.ifId.inst = some t4.latches.idEx.ctrl ∧
      t4.latches.idEx.pc = s.latches.ifId.pc ∧
      (rsField s.latches.ifId.inst = s.latches.idEx.rt → t4.latches.idEx.rsVal = value) ∧
      (rtField s.latches.ifId.inst = s.latches.idEx.rt → t4.latches.idEx.rtVal = value)

/-- A load in MEM one cycle after a store to the same address reads what it stored (R60, derived by the
spec). -/
def Obligations.LoadAfterStoreReadsIt : Prop :=
  ∀ s t1 t2 : State, Memory.wf s.dmem = true →
    s.latches.exMem.memWrite = true → s.latches.idEx.ctrl.memRead = true →
    latchedAluResult s.latches.idEx = s.latches.exMem.aluResult →
    CycleCompletes s t1 → CycleCompletes t1 t2 →
    t2.latches.memWb.readData = s.latches.exMem.storeVal

/-! ### The instructions -/

/-- Every instruction's decode cycle completes when the fetch is defined, the older access is allowed and
no data stall cancels the word, and this is the ID/EX latch it leaves: its control row, its fields and its
operands as WB of the same cycle left them. -/
def Obligations.ExecCompletesInDecode : Prop :=
  ∀ (i : Instr) (s : State), FetchDefined s → AccessAllowed s → dataStall s (sourcesOf i) = 0#8 →
    ∃ t, exec i s = .next t ∧ t.fault = s.fault ∧ t.cycleCount = s.cycleCount + 1 ∧
      t.latches.idEx =
        { pc := s.latches.ifId.pc
          ctrl := Control.ofInstr i
          rsVal := operandInDecode s (rsField (encode i))
          rtVal := operandInDecode s (rtField (encode i))
          rt := rtField (encode i)
          rd := rdField (encode i)
          imm := sext16 (imm16Field (encode i))
          addr := addr26Field (encode i) }

/-- `add`, `sub`, `and`, `or` and `slt` alone in the pipeline run to their end in four cycles and write
their result to `rd`, count once, and change nothing else (R160, derived by the spec; R161 to R165). -/
def Obligations.RFormatAloneWritesItsResult : Prop :=
  ∀ (op : AluMnemonic) (rd rs rt : RegNum) (shamt : BitVec 5) (s : State), Alone s →
    ∃ t u, exec (rInstr op rd rs rt shamt) s = .next t ∧ Sys2Proof.core.run 3 t = .next u ∧
      u.regs = writeReg s.params.r0Hardwired s.regs rd
        (rValue op (readReg s.params.r0Hardwired s.regs rs)
          (readReg s.params.r0Hardwired s.regs rt)) ∧
      u.ops = rCount op s.ops ∧ u.dmem = s.dmem ∧ u.imem = s.imem ∧ u.params = s.params ∧
      u.fault = none ∧ u.bubblesRemaining = 0#8 ∧ u.pc = s.pc + 16#32 ∧
      u.cycleCount = s.cycleCount + 4 ∧ u.instructionCount = s.instructionCount + 4 ∧
      u.running = false

/-- `lw` alone in the pipeline, with an aligned address inside data memory, runs to its end in four
cycles, writes the loaded word to `rt`, and changes nothing else but its two counters (R170, R171). -/
def Obligations.LwAloneLoadsTheWord : Prop :=
  ∀ (rt rs : RegNum) (imm : BitVec 16) (s : State), Alone s →
    let ea := effectiveAddress (readReg s.params.r0Hardwired s.regs rs) imm
    ea.toNat % 4 = 0 → ea.toNat + 4 ≤ s.params.dmemSize →
    ∃ t u, exec (.lw rt rs imm) s = .next t ∧ Sys2Proof.core.run 3 t = .next u ∧
      u.regs = writeReg s.params.r0Hardwired s.regs rt (readWord s.dmem ea.toNat) ∧
      u.ops = { s.ops with add := s.ops.add + 1, memRead := s.ops.memRead + 1 } ∧
      u.dmem = s.dmem ∧ u.imem = s.imem ∧ u.params = s.params ∧
      u.fault = none ∧ u.bubblesRemaining = 0#8 ∧ u.pc = s.pc + 16#32 ∧
      u.cycleCount = s.cycleCount + 4 ∧ u.instructionCount = s.instructionCount + 4 ∧
      u.running = false

/-- `sw` alone in the pipeline, with an aligned address inside data memory, runs to its end in three
cycles, stores `rt` big-endian in the four bytes at the effective address and in no other, and changes
nothing else but its two counters (R170, R172). -/
def Obligations.SwAloneStoresTheWord : Prop :=
  ∀ (rt rs : RegNum) (imm : BitVec 16) (s : State), Alone s → Memory.wf s.dmem = true →
    let ea := effectiveAddress (readReg s.params.r0Hardwired s.regs rs) imm
    ea.toNat % 4 = 0 → ea.toNat + 4 ≤ s.params.dmemSize →
    ∃ t u, exec (.sw rt rs imm) s = .next t ∧ Sys2Proof.core.run 2 t = .next u ∧
      (∀ x : Nat, readByte u.dmem x =
        if ea.toNat ≤ x ∧ x < ea.toNat + 4 then
          (readReg s.params.r0Hardwired s.regs rt).extractLsb' (24 - 8 * (x - ea.toNat)) 8
        else readByte s.dmem x) ∧
      u.regs = s.regs ∧
      u.ops = { s.ops with add := s.ops.add + 1, memWrite := s.ops.memWrite + 1 } ∧
      u.imem = s.imem ∧ u.params = s.params ∧
      u.fault = none ∧ u.bubblesRemaining = 0#8 ∧ u.pc = s.pc + 12#32 ∧
      u.cycleCount = s.cycleCount + 3 ∧ u.instructionCount = s.instructionCount + 3 ∧
      u.running = false

/-- `lw` and `sw` alone in the pipeline trap in their MEM cycle when the effective address is misaligned,
which is checked first, or outside data memory: the cycle commits nothing and the record holds the address
(R52, R170, R202, R203). -/
def Obligations.LoadAndStoreAloneFault : Prop :=
  ∀ (rt rs : RegNum) (imm : BitVec 16) (s : State) (i : Instr), Alone s →
    i = .lw rt rs imm ∨ i = .sw rt rs imm →
    let ea := effectiveAddress (readReg s.params.r0Hardwired s.regs rs) imm
    ea.toNat % 4 ≠ 0 ∨ ea.toNat + 4 > s.params.dmemSize →
    ∃ t v, exec i s = .next t ∧ Sys2Proof.core.run 1 t = .next v ∧
      v.fault = none ∧ v.running = true ∧ v.regs = s.regs ∧ v.dmem = s.dmem ∧
      step v = .next { v with
        fault := some (if ea.toNat % 4 ≠ 0 then .misalignedData ea else .dataOutOfBounds ea)
        running := false }

/-- `beq` alone in the pipeline, under the default control count: the word after it is fetched, one bubble
follows, and the third cycle fetches from the target if the operands are equal and from the next address
otherwise; only the `sub` counter changes besides (R180). -/
def Obligations.BeqAloneBranches : Prop :=
  ∀ (rs rt : RegNum) (imm : BitVec 16) (s : State), Alone s → s.params.haz.ctrl = 1#8 →
    s.latches.ifId.pc.toNat % 4 = 0 →
    let taken := readReg s.params.r0Hardwired s.regs rs = readReg s.params.r0Hardwired s.regs rt
    let next := if taken then s.latches.ifId.pc + (imm.signExtend 32 <<< 2) else s.pc + 4#32
    ∃ t u, exec (.beq rs rt imm) s = .next t ∧ Sys2Proof.core.run 2 t = .next u ∧
      t.bubblesRemaining = 1#8 ∧
      fetchWord s.imem s.params.imemLen next = .ok u.latches.ifId.inst ∧
      u.latches.ifId.pc = next + 4#32 ∧ u.pc = next + 4#32 ∧
      u.regs = s.regs ∧ u.dmem = s.dmem ∧ u.imem = s.imem ∧ u.params = s.params ∧
      u.ops = { s.ops with sub := s.ops.sub + 1 } ∧ u.fault = none ∧
      u.bubblesRemaining = 0#8 ∧ u.cycleCount = s.cycleCount + 3 ∧
      u.instructionCount = s.instructionCount + 2

/-- `j` alone in the pipeline, under the default control count: the word after it is fetched, one bubble
follows, and the third cycle fetches from the target (its form: log entry 9); nothing else changes but the
counter of the ALU operation whose funct equals the target's low six bits, if there is one (R181). -/
def Obligations.JAloneJumps : Prop :=
  ∀ (n : BitVec 26) (s : State), Alone s → s.params.haz.ctrl = 1#8 →
    let target : Word := (s.latches.ifId.pc.extractLsb' 28 4 ++ n ++ 0#2).cast rfl
    ∃ t u, exec (.j n) s = .next t ∧ Sys2Proof.core.run 2 t = .next u ∧
      t.bubblesRemaining = 1#8 ∧
      fetchWord s.imem s.params.imemLen target = .ok u.latches.ifId.inst ∧
      u.latches.ifId.pc = target + 4#32 ∧ u.pc = target + 4#32 ∧
      u.regs = s.regs ∧ u.dmem = s.dmem ∧ u.imem = s.imem ∧ u.params = s.params ∧
      u.ops = countAlu s.ops (aluControl 0b10#2 (n.extractLsb' 0 6)) ∧ u.fault = none ∧
      u.bubblesRemaining = 0#8 ∧ u.cycleCount = s.cycleCount + 3 ∧
      u.instructionCount = s.instructionCount + 2

/-- `nop` completes wherever the fetch is defined and the older access is allowed, whatever else is in
flight: it is never stalled, leaves the nop bundle and zero fields in ID/EX, and in EX has no ALU code,
result 0 with the zero flag set, and counts nothing (R190). -/
def Obligations.NopDoesNothing : Prop :=
  ∀ s : State, FetchDefined s → AccessAllowed s →
    ∃ t, exec .nop s = .next t ∧
      t.latches.idEx =
        { pc := s.latches.ifId.pc, ctrl := Control.nopRow, rsVal := operandInDecode s 0#5,
          rtVal := operandInDecode s 0#5, rt := 0#5, rd := 0#5, imm := 0#32, addr := 0#26 } ∧
      t.bubblesRemaining =
        (if s.bubblesRemaining = 0#8 then 0#8 else s.bubblesRemaining - 1#8) ∧
      latchedAluCode t.latches.idEx = none ∧
      (executeStage t.latches.idEx).aluResult = 0#32 ∧
      (executeStage t.latches.idEx).zeroFlag = true ∧
      (∀ c : OpCounters, executeCount c t.latches.idEx = c)

/-- The result of an R-format operation in any context: not cancelled, it writes `rd` in the WB of its
fourth cycle, from the operands ID read, and that cycle writes no other register (R128, R160). -/
def Obligations.RFormatResultReachesItsRegister : Prop :=
  ∀ (op : AluMnemonic) (rd rs rt : RegNum) (shamt : BitVec 5) (s t1 t2 t3 t4 : State),
    s.latches.ifId.inst = encode (rInstr op rd rs rt shamt) → dataStall s [rs, rt] = 0#8 →
    CycleCompletes s t1 → CycleCompletes t1 t2 → CycleCompletes t2 t3 → CycleCompletes t3 t4 →
    t4.regs = writeReg s.params.r0Hardwired t3.regs rd
      (rValue op (operandInDecode s rs) (operandInDecode s rt))

/-- The result of a load in any context: not cancelled, it reads data memory in its third cycle at the
address made from the base that ID read, and writes the word to `rt` in its fourth (R171). -/
def Obligations.LwResultReachesItsRegister : Prop :=
  ∀ (rt rs : RegNum) (imm : BitVec 16) (s t1 t2 t3 t4 : State),
    s.latches.ifId.inst = encode (.lw rt rs imm) → dataStall s [rs] = 0#8 →
    CycleCompletes s t1 → CycleCompletes t1 t2 → CycleCompletes t2 t3 → CycleCompletes t3 t4 →
    t3.dmem = t2.dmem ∧
    t4.regs = writeReg s.params.r0Hardwired t3.regs rt
      (readWord t2.dmem (effectiveAddress (operandInDecode s rs) imm).toNat)

/-- A store in any context: not cancelled, it writes the value of `rt` that ID read in its third cycle,
and its fourth writes no register (R172). -/
def Obligations.SwResultReachesMemory : Prop :=
  ∀ (rt rs : RegNum) (imm : BitVec 16) (s t1 t2 t3 t4 : State),
    s.latches.ifId.inst = encode (.sw rt rs imm) → dataStall s [rs, rt] = 0#8 →
    CycleCompletes s t1 → CycleCompletes t1 t2 → CycleCompletes t2 t3 → CycleCompletes t3 t4 →
    t3.dmem = writeWord t2.dmem (effectiveAddress (operandInDecode s rs) imm).toNat
      (operandInDecode s rt) ∧
    t4.regs = t3.regs

/-! ### Faults, halt, reset -/

/-- A faulting cycle commits nothing, and is a next state with the record set (log entry 4), whose own
step changes nothing (log entry 3): the state is as it was but for the record and `running`, no later
cycle is taken, and an undecodable word is the fault whatever waits in MEM (R152). -/
def Obligations.FaultCommitsNothing : Prop :=
  (∀ s t : State, step s = .next t → s.fault = none → t.fault ≠ none →
    ∃ r, t = { s with fault := some r, running := false } ∧ step t = .next t) ∧
  ∀ (s : State) (e : Rejection), s.Live → decode s.latches.ifId.inst = .error e →
    step s = .next { s with
      fault := some (.decodeError (s.latches.ifId.pc - 4#32) s.latches.ifId.inst), running := false }

/-- Which fault a cycle raises, in order of priority, and that there is none otherwise (R201 to R203,
R206). -/
def Obligations.FaultPriority : Prop :=
  ∀ s : State, s.Live → FetchDefined s →
    let a := s.latches.exMem.aluResult
    let access := s.latches.exMem.memRead = true ∨ s.latches.exMem.memWrite = true
    ((∃ e, decode s.latches.ifId.inst = .error e) →
      step s = .next (s.raise (.decodeError (s.latches.ifId.pc - 4#32) s.latches.ifId.inst))) ∧
    ((∃ i, decode s.latches.ifId.inst = .ok i) →
      (access → a.toNat % 4 ≠ 0 → step s = .next (s.raise (.misalignedData a))) ∧
      (access → a.toNat % 4 = 0 → a.toNat + 4 > s.params.dmemSize →
        step s = .next (s.raise (.dataOutOfBounds a))) ∧
      (AccessAllowed s → ∃ t, step s = .next t ∧ t.fault = none))

/-- A core that has stopped running takes no further cycle (R155); the model's step answers the state
unchanged (log entry 3). -/
def Obligations.StoppedCoreIsFinal : Prop :=
  ∀ (k : Nat) (s : State), s.running = false → Sys2Proof.core.run k s = .next s

/-- The halt rule, at the end of every completed cycle and at a launch (R153). -/
def Obligations.RunningFollowsTheHaltRule : Prop :=
  (∀ s t : State, CycleCompletes s t ∨ (∃ a, launch a = .next t) →
    (t.running = false ↔
      t.params.imemLen ≤ t.pc.toNat ∧ t.bubblesRemaining = 0#8 ∧ quiescent t.latches = true)) ∧
  ∀ l : Latches, quiescent l = true ↔
    l.ifId.inst = 0#32 ∧
    (l.idEx.ctrl.regWrite = false ∧ l.idEx.ctrl.memRead = false ∧ l.idEx.ctrl.memWrite = false ∧
      l.idEx.ctrl.branch = false ∧ l.idEx.ctrl.jump = false) ∧
    (l.exMem.regWrite = false ∧ l.exMem.memRead = false ∧ l.exMem.memWrite = false ∧
      l.exMem.branch = false ∧ l.exMem.jump = false) ∧
    l.memWb.regWrite = false

/-- Once halted, a further cycle would change no register, no memory and no operation counter, and would
stay halted, until `pc` wraps (R154, derived by the spec; the wrap: log entry 16). -/
def Obligations.HaltedCycleChangesNothing : Prop :=
  ∀ s : State, s.Inv → halted s = true → s.pc.toNat + 4 < 2 ^ 32 →
    ∃ t, exec .nop s = .next t ∧ halted t = true ∧ t.regs = s.regs ∧ t.dmem = s.dmem ∧
      t.ops = s.ops ∧ t.pc = s.pc + 4#32 ∧ t.cycleCount = s.cycleCount + 1 ∧
      t.instructionCount = s.instructionCount + 1

/-- Every element takes its reset value when a launch is accepted (R44). -/
def Obligations.LaunchSetsResetValues : Prop :=
  (∀ (a : LaunchArgs) (imem seed : List Byte), a.imem = .bytes imem →
    (a.dseed = .bytes seed ∨ (a.dseed = .notGiven ∧ seed = [])) →
    imem.length % 4 = 0 → seed.length ≤ a.dmemSize →
    ∃ s, launch a = .next s ∧
      s.pc = 0#32 ∧ s.regs = a.initRegs ∧
      (∀ x : Nat, readByte s.imem x = imem.getD x 0#8) ∧
      (∀ x : Nat, readByte s.dmem x = seed.getD x 0#8) ∧
      s.params = { imemLen := imem.length, dmemSize := a.dmemSize,
                   r0Hardwired := a.r0Hardwired, haz := a.haz } ∧
      s.bubblesRemaining = 0#8 ∧ s.cycleCount = 0 ∧ s.instructionCount = 0 ∧
      s.ops = { add := 0, sub := 0, and := 0, or := 0, slt := 0, memRead := 0, memWrite := 0 } ∧
      s.latches.ifId = { inst := 0#32, pc := 0#32 } ∧
      s.latches.idEx =
        { pc := 0#32
          ctrl := { regDst := false, aluSrc := false, branch := false, jump := false,
                    memRead := false, memWrite := false, regWrite := false, memToReg := false,
                    aluOp := 0b10#2 }
          rsVal := 0#32, rtVal := 0#32, rt := 0#5, rd := 0#5, imm := 0#32, addr := 0#26 } ∧
      s.latches.exMem =
        { branch := false, jump := false, memRead := false, memWrite := false, regWrite := false,
          memToReg := false, zeroFlag := false, aluResult := 0#32, branchAddr := 0#32,
          jumpAddr := 0#32, storeVal := 0#32, reg := 0#5 } ∧
      s.latches.memWb =
        { regWrite := false, memToReg := false, readData := 0#32, aluResult := 0#32, reg := 0#5 } ∧
      s.fault = none ∧ (s.running = true ↔ imem.length ≠ 0)) ∧
  ∀ b : InputBuffer, (LaunchArgs.initRegs { imem := b }) = Vector.replicate 32 0#32

/-- A launch is refused exactly on the spec's configuration errors and never faults; a data memory of size
0 is accepted, and every access to it faults (R233). -/
def Obligations.LaunchRefusesConfigErrors : Prop :=
  (∀ a : LaunchArgs, (∃ r, launch a = .refused r) ↔
    ((∀ imem, a.imem ≠ .bytes imem) ∨ a.dseed = .unreadable ∨
      (∃ imem, a.imem = .bytes imem ∧ imem.length % 4 ≠ 0) ∨
      (∃ seed, a.dseed = .bytes seed ∧ seed.length > a.dmemSize))) ∧
  (∀ (a : LaunchArgs) (r : Fault), launch a ≠ .fault r) ∧
  ∀ a : Word, dataCheck 0 a ≠ none

/-! ### Invariants -/

/-- Every step keeps the invariant: aligned addresses, memories in canonical form and inside their sizes,
a decodable word's fields in ID/EX, a bounded stall count, a counted instruction, and `running` as the
halt rule says (R26, R35, R38, R48, R148, R153). -/
def Obligations.StepKeepsInvariant : Prop :=
  ∀ s t : State, s.Inv → step s = .next t → t.Inv

/-- The reset state satisfies the invariant. -/
def Obligations.ResetHasInvariant : Prop :=
  State.reset.Inv

/-- Every accepted launch satisfies the invariant, and its IF/ID latch holds no word, so that
`InstFromMemory` holds at the start of every run. -/
def Obligations.LaunchHasInvariant : Prop :=
  ∀ (a : LaunchArgs) (s : State), launch a = .next s →
    s.Inv ∧ s.latches.ifId.inst = 0#32 ∧ InstFromMemory s

/-- From a state of the invariant every run of any length answers a next state that satisfies it: the
undefined fetch (log entry 5) is never reached, and no instruction is refused (R47, R48, R152, R155). -/
def Obligations.RunsNeverGetStuck : Prop :=
  ∀ (k : Nat) (s : State), s.Inv → ∃ t, Sys2Proof.core.run k s = .next t ∧ State.Inv t

/-- Every step keeps the word in IF/ID the word of instruction memory at its address (R133, R134, R201).
-/
def Obligations.InstStaysFromMemory : Prop :=
  ∀ s t : State, InstFromMemory s → step s = .next t → InstFromMemory t

/-- Under the default counts the stall count stays at most 1 at the end of every cycle (R35). -/
def Obligations.StallCountStaysAtMostOne : Prop :=
  ∀ s t : State, s.params.haz = {} → s.bubblesRemaining ≤ 1#8 → step s = .next t →
    t.bubblesRemaining ≤ 1#8
end

