-- ==== Sys2Proof/Laws/Bits.lean ====
section
/-! SUPPORT. The fields of a word written in a format, the word its fields make, and the bytes of a
word. -/

namespace Sys2Proof

section RFormat
variable (rs rt rd : RegNum) (shamt : BitVec 5) (funct : BitVec 6)

@[simp] theorem opcodeField_rFormat : opcodeField (rFormat rs rt rd shamt funct) = opcodeR := by
  unfold opcodeField rFormat opcodeR; grind
@[simp] theorem rsField_rFormat : rsField (rFormat rs rt rd shamt funct) = rs := by
  unfold rsField rFormat; grind
@[simp] theorem rtField_rFormat : rtField (rFormat rs rt rd shamt funct) = rt := by
  unfold rtField rFormat; grind
@[simp] theorem rdField_rFormat : rdField (rFormat rs rt rd shamt funct) = rd := by
  unfold rdField rFormat; grind
@[simp] theorem shamtField_rFormat : shamtField (rFormat rs rt rd shamt funct) = shamt := by
  unfold shamtField rFormat; grind
@[simp] theorem functField_rFormat : functField (rFormat rs rt rd shamt funct) = funct := by
  unfold functField rFormat; grind

end RFormat

section IFormat
variable (op : BitVec 6) (rs rt : RegNum) (imm : BitVec 16)

@[simp] theorem opcodeField_iFormat : opcodeField (iFormat op rs rt imm) = op := by
  unfold opcodeField iFormat; grind
@[simp] theorem rsField_iFormat : rsField (iFormat op rs rt imm) = rs := by
  unfold rsField iFormat; grind
@[simp] theorem rtField_iFormat : rtField (iFormat op rs rt imm) = rt := by
  unfold rtField iFormat; grind
@[simp] theorem imm16Field_iFormat : imm16Field (iFormat op rs rt imm) = imm := by
  unfold imm16Field iFormat; grind

end IFormat

section JFormat
variable (op : BitVec 6) (t : BitVec 26)

@[simp] theorem opcodeField_jFormat : opcodeField (jFormat op t) = op := by
  unfold opcodeField jFormat; grind
@[simp] theorem addr26Field_jFormat : addr26Field (jFormat op t) = t := by
  unfold addr26Field jFormat; grind

end JFormat

section Rebuild
variable (w : Word)

/-- A word is its R-format fields. -/
theorem rFields_eq : (opcodeField w ++ rsField w ++ rtField w ++ rdField w ++ shamtField w
    ++ functField w).cast rfl = w := by
  unfold opcodeField rsField rtField rdField shamtField functField; grind

theorem rFormat_fields (h : opcodeField w = opcodeR) :
    rFormat (rsField w) (rtField w) (rdField w) (shamtField w) (functField w) = w := by
  conv_rhs => rw [← rFields_eq w, h]
  rfl

theorem iFormat_fields :
    iFormat (opcodeField w) (rsField w) (rtField w) (imm16Field w) = w := by
  unfold iFormat opcodeField rsField rtField imm16Field; grind

theorem jFormat_fields : jFormat (opcodeField w) (addr26Field w) = w := by
  unfold jFormat opcodeField addr26Field; grind

/-- The low six bits of the sign-extended immediate are the word's funct bits (R74). -/
@[simp] theorem funct_of_imm :
    (Machine.sext16 (imm16Field w)).extractLsb' 0 6 = functField w := by
  ext i hi
  have h16 : i < 16 := by omega
  have h32 : i < 32 := by omega
  simp [Machine.sext16, imm16Field, functField, h32, BitVec.getElem_signExtend, h16]

end Rebuild

section Bytes
variable (b0 b1 b2 b3 : Byte) (w : Word)

@[simp] theorem byte3_wordOfBytes : (wordOfBytes b0 b1 b2 b3).extractLsb' 24 8 = b0 := by
  unfold wordOfBytes; grind
@[simp] theorem byte2_wordOfBytes : (wordOfBytes b0 b1 b2 b3).extractLsb' 16 8 = b1 := by
  unfold wordOfBytes; grind
@[simp] theorem byte1_wordOfBytes : (wordOfBytes b0 b1 b2 b3).extractLsb' 8 8 = b2 := by
  unfold wordOfBytes; grind
@[simp] theorem byte0_wordOfBytes : (wordOfBytes b0 b1 b2 b3).extractLsb' 0 8 = b3 := by
  unfold wordOfBytes; grind

/-- Writing a word as bytes and reading it back loses nothing (R53). -/
@[simp] theorem wordOfBytes_bytes : wordOfBytes (w.extractLsb' 24 8) (w.extractLsb' 16 8)
    (w.extractLsb' 8 8) (w.extractLsb' 0 8) = w := by
  unfold wordOfBytes; grind

end Bytes

end Sys2Proof
end

