-- ==== Sys2Proof/Laws/Memory.lean ====
section
/-! SUPPORT. Memory: read after write, the canonical form, and the bounds. -/

namespace Sys2Proof.Machine

/-! ### Bytes -/

@[simp] theorem readByte_nil (a : Nat) : readByte [] a = unlistedByte := rfl

theorem readByte_cons (k : Nat) (b : Byte) (m : Memory) (a : Nat) :
    readByte ((k, b) :: m) a = if k = a then b else readByte m a := rfl

/-- What the canonical form says of a nonempty memory. -/
theorem wf_cons {k : Nat} {b : Byte} {m : Memory} :
    Memory.wf ((k, b) :: m) = true ↔
      b ≠ unlistedByte ∧ (∀ c ∈ m, k < c.1) ∧ Memory.wf m = true := by
  simp [Memory.wf, List.all_eq_true, and_assoc]

/-- An address below every listed one reads as unlisted. -/
theorem readByte_below {m : Memory} {a : Nat} (h : ∀ c ∈ m, a < c.1) :
    readByte m a = unlistedByte := by
  induction m with
  | nil => rfl
  | cons c m ih =>
    obtain ⟨k, b⟩ := c
    have hk : a < k := h (k, b) (by simp)
    rw [readByte_cons, if_neg (by omega), ih fun c hc => h c (by simp [hc])]

/-- Every address a write lists was listed before or is the one written. -/
theorem mem_writeByte {m : Memory} {a : Nat} {v : Byte} {c : Host.Cell}
    (h : c ∈ writeByte m a v) : c ∈ m ∨ c.1 = a := by
  induction m with
  | nil =>
    simp only [writeByte] at h
    split at h <;> simp_all
  | cons d m ih =>
    obtain ⟨k, b⟩ := d
    simp only [writeByte] at h
    split at h
    · rcases List.mem_cons.1 h with rfl | h
      · simp
      · rcases ih h with h | h <;> simp [h]
    · split at h <;> split at h <;> simp_all <;> grind

/-- A write keeps the canonical form. -/
theorem writeByte_wf {m : Memory} (a : Nat) (v : Byte) (h : Memory.wf m = true) :
    Memory.wf (writeByte m a v) = true := by
  induction m with
  | nil =>
    simp only [writeByte]
    split <;> simp_all [Memory.wf]
  | cons c m ih =>
    obtain ⟨k, b⟩ := c
    obtain ⟨hb, hlt, hm⟩ := wf_cons.1 h
    simp only [writeByte]
    split
    · refine wf_cons.2 ⟨hb, fun c hc => ?_, ih hm⟩
      rcases mem_writeByte hc with hc | hc
      · exact hlt c hc
      · omega
    · split <;> split <;> simp_all [wf_cons] <;> grind

/-- A write below `size` keeps every listed address below it. -/
theorem writeByte_within {m : Memory} {a size : Nat} (v : Byte) (ha : a < size)
    (h : Memory.within m size = true) : Memory.within (writeByte m a v) size = true := by
  simp only [Memory.within, List.all_eq_true, decide_eq_true_eq] at h ⊢
  intro c hc
  rcases mem_writeByte hc with hc | hc
  · exact h c hc
  · omega

/-- Reading the byte just written gives it; every other address reads as before. -/
theorem readByte_writeByte {m : Memory} (a : Nat) (v : Byte) (x : Nat) (h : Memory.wf m = true) :
    readByte (writeByte m a v) x = if x = a then v else readByte m x := by
  induction m with
  | nil =>
    simp only [writeByte]
    split <;> grind [readByte_cons, readByte_nil]
  | cons c m ih =>
    obtain ⟨k, b⟩ := c
    obtain ⟨hb, hlt, hm⟩ := wf_cons.1 h
    have hbelow : ∀ y, y ≤ k → readByte m y = unlistedByte := fun y hy =>
      readByte_below fun c hc => lt_of_le_of_lt hy (hlt c hc)
    have ih := ih hm
    have := hbelow x
    simp only [writeByte]
    split <;> (try split) <;> (try split) <;> grind [readByte_cons]

/-- Memories in canonical form that read alike are the same. -/
theorem memory_ext {m n : Memory} (hm : Memory.wf m = true) (hn : Memory.wf n = true)
    (h : ∀ a, readByte m a = readByte n a) : m = n := by
  induction m generalizing n with
  | nil =>
    cases n with
    | nil => rfl
    | cons c n =>
      obtain ⟨k, b⟩ := c
      have := h k
      simp [readByte_cons] at this
      exact absurd this.symm (wf_cons.1 hn).1
  | cons c m ih =>
    obtain ⟨k, b⟩ := c
    obtain ⟨hb, hlt, hm'⟩ := wf_cons.1 hm
    cases n with
    | nil =>
      have := h k
      simp [readByte_cons] at this
      exact absurd this hb
    | cons d n =>
      obtain ⟨j, e⟩ := d
      obtain ⟨he, hlt', hn'⟩ := wf_cons.1 hn
      have bm : ∀ y, y ≤ k → readByte m y = unlistedByte := fun y hy =>
        readByte_below fun c hc => lt_of_le_of_lt hy (hlt c hc)
      have bn : ∀ y, y ≤ j → readByte n y = unlistedByte := fun y hy =>
        readByte_below fun c hc => lt_of_le_of_lt hy (hlt' c hc)
      have hkj : k = j := by
        rcases Nat.lt_trichotomy k j with hl | rfl | hl
        · have := h k; rw [readByte_cons, readByte_cons] at this
          grind
        · rfl
        · have := h j; rw [readByte_cons, readByte_cons] at this
          grind
      subst hkj
      have hbe : b = e := by simpa [readByte_cons] using h k
      subst hbe
      congr 1
      refine ih hm' hn' fun a => ?_
      have := h a
      rw [readByte_cons, readByte_cons] at this
      by_cases hak : k = a
      · rw [bm a (by omega), bn a (by omega)]
      · simpa [hak] using this

/-! ### Buffers -/

theorem memoryOfBytes_ge {base : Nat} {bs : List Byte} {c : Host.Cell}
    (h : c ∈ memoryOfBytes base bs) : base ≤ c.1 ∧ c.1 < base + bs.length := by
  induction bs generalizing base with
  | nil => simp [memoryOfBytes] at h
  | cons b bs ih =>
    simp only [memoryOfBytes] at h
    have : c = (base, b) ∨ c ∈ memoryOfBytes (base + 1) bs := by
      split at h
      · exact .inr h
      · simpa using h
    rcases this with rfl | h
    · simp
    · have := ih h
      simp only [List.length_cons]
      omega

/-- A loaded buffer reads as its bytes, and as zero everywhere else (R44). -/
theorem readByte_memoryOfBytes (base : Nat) (bs : List Byte) (x : Nat) :
    readByte (memoryOfBytes base bs) x = if base ≤ x then bs.getD (x - base) 0#8 else 0#8 := by
  induction bs generalizing base with
  | nil => simp [memoryOfBytes, unlistedByte]
  | cons b bs ih =>
    rcases Nat.lt_trichotomy x base with h | rfl | h
    · simp only [memoryOfBytes]
      split <;> simp [readByte_cons, ih, show ¬base + 1 ≤ x by omega, show ¬base ≤ x by omega,
        show ¬base = x by omega]
    · simp only [memoryOfBytes]
      split <;> simp_all [readByte_cons, unlistedByte]
    · have hx : x - base = (x - (base + 1)) + 1 := by omega
      simp only [memoryOfBytes]
      split <;> simp [readByte_cons, ih, hx, show base + 1 ≤ x by omega, show base ≤ x by omega,
        show ¬base = x by omega]

/-- A loaded buffer is in canonical form. -/
theorem memoryOfBytes_wf (base : Nat) (bs : List Byte) : Memory.wf (memoryOfBytes base bs) = true := by
  induction bs generalizing base with
  | nil => rfl
  | cons b bs ih =>
    simp only [memoryOfBytes]
    split
    · exact ih _
    · next hb =>
      exact wf_cons.2 ⟨hb, fun c hc => by have := memoryOfBytes_ge hc; omega, ih _⟩

/-- A loaded buffer lies inside its length. -/
theorem memoryOfBytes_within {bs : List Byte} {size : Nat} (h : bs.length ≤ size) :
    Memory.within (memoryOfBytes 0 bs) size = true := by
  simp only [Memory.within, List.all_eq_true, decide_eq_true_eq]
  intro c hc
  have := memoryOfBytes_ge hc
  omega

/-! ### Words -/

theorem writeWord_wf {m : Memory} (a : Nat) (v : Word) (h : Memory.wf m = true) :
    Memory.wf (writeWord m a v) = true :=
  writeByte_wf _ _ (writeByte_wf _ _ (writeByte_wf _ _ (writeByte_wf _ _ h)))

theorem writeWord_within {m : Memory} {a size : Nat} (v : Word) (ha : a + 4 ≤ size)
    (h : Memory.within m size = true) : Memory.within (writeWord m a v) size = true :=
  writeByte_within _ (by omega) (writeByte_within _ (by omega)
    (writeByte_within _ (by omega) (writeByte_within _ (by omega) h)))

/-- Every byte after a word is written: the four it covers hold it big-endian, and every other byte
is as before. -/
theorem readByte_writeWord {m : Memory} (a : Nat) (v : Word) (x : Nat) (h : Memory.wf m = true) :
    readByte (writeWord m a v) x =
      if x = a + 3 then v.extractLsb' 0 8
      else if x = a + 2 then v.extractLsb' 8 8
      else if x = a + 1 then v.extractLsb' 16 8
      else if x = a then v.extractLsb' 24 8
      else readByte m x := by
  have h1 := writeByte_wf a (v.extractLsb' 24 8) h
  have h2 := writeByte_wf (a + 1) (v.extractLsb' 16 8) h1
  have h3 := writeByte_wf (a + 2) (v.extractLsb' 8 8) h2
  simp only [writeWord, readByte_writeByte _ _ _ h, readByte_writeByte _ _ _ h1,
    readByte_writeByte _ _ _ h2, readByte_writeByte _ _ _ h3]

end Sys2Proof.Machine
end

