-- ==== Sys2Proof/Laws/State.lean ====
section
/-! SUPPORT. One lemma per field for each update of the state. -/

namespace Sys2Proof.Machine

section Raise
variable (s : State) (r : FaultRecord)

@[simp] theorem raise_params : (s.raise r).params = s.params := rfl
@[simp] theorem raise_pc : (s.raise r).pc = s.pc := rfl
@[simp] theorem raise_regs : (s.raise r).regs = s.regs := rfl
@[simp] theorem raise_imem : (s.raise r).imem = s.imem := rfl
@[simp] theorem raise_dmem : (s.raise r).dmem = s.dmem := rfl
@[simp] theorem raise_bubblesRemaining : (s.raise r).bubblesRemaining = s.bubblesRemaining := rfl
@[simp] theorem raise_running : (s.raise r).running = false := rfl
@[simp] theorem raise_cycleCount : (s.raise r).cycleCount = s.cycleCount := rfl
@[simp] theorem raise_instructionCount : (s.raise r).instructionCount = s.instructionCount := rfl
@[simp] theorem raise_ops : (s.raise r).ops = s.ops := rfl
@[simp] theorem raise_latches : (s.raise r).latches = s.latches := rfl
@[simp] theorem raise_fault : (s.raise r).fault = some r := rfl

end Raise

section Settle
variable (s : State)

@[simp] theorem settleRunning_params : (settleRunning s).params = s.params := rfl
@[simp] theorem settleRunning_pc : (settleRunning s).pc = s.pc := rfl
@[simp] theorem settleRunning_regs : (settleRunning s).regs = s.regs := rfl
@[simp] theorem settleRunning_imem : (settleRunning s).imem = s.imem := rfl
@[simp] theorem settleRunning_dmem : (settleRunning s).dmem = s.dmem := rfl
@[simp] theorem settleRunning_bubblesRemaining :
    (settleRunning s).bubblesRemaining = s.bubblesRemaining := rfl
@[simp] theorem settleRunning_running : (settleRunning s).running = !halted s := rfl
@[simp] theorem settleRunning_cycleCount : (settleRunning s).cycleCount = s.cycleCount := rfl
@[simp] theorem settleRunning_instructionCount :
    (settleRunning s).instructionCount = s.instructionCount := rfl
@[simp] theorem settleRunning_ops : (settleRunning s).ops = s.ops := rfl
@[simp] theorem settleRunning_latches : (settleRunning s).latches = s.latches := rfl
@[simp] theorem settleRunning_fault : (settleRunning s).fault = s.fault := rfl
@[simp] theorem halted_settleRunning : halted (settleRunning s) = halted s := rfl

end Settle

section AfterStages
variable (s : State) (regs : Registers) (d : DecodeOut) (m : MemOut)

@[simp] theorem afterStages_params : (afterStages s regs d m).params = s.params := rfl
@[simp] theorem afterStages_pc : (afterStages s regs d m).pc = d.pc := rfl
@[simp] theorem afterStages_regs : (afterStages s regs d m).regs = regs := rfl
@[simp] theorem afterStages_imem : (afterStages s regs d m).imem = s.imem := rfl
@[simp] theorem afterStages_dmem : (afterStages s regs d m).dmem = m.dmem := rfl
@[simp] theorem afterStages_bubblesRemaining :
    (afterStages s regs d m).bubblesRemaining = d.bubbles := rfl
@[simp] theorem afterStages_running : (afterStages s regs d m).running = s.running := rfl
@[simp] theorem afterStages_cycleCount :
    (afterStages s regs d m).cycleCount = s.cycleCount + 1 := rfl
@[simp] theorem afterStages_instructionCount :
    (afterStages s regs d m).instructionCount = d.instructionCount := rfl
@[simp] theorem afterStages_ops : (afterStages s regs d m).ops = m.ops := rfl
@[simp] theorem afterStages_ifId : (afterStages s regs d m).latches.ifId = d.ifId := rfl
@[simp] theorem afterStages_idEx : (afterStages s regs d m).latches.idEx = d.idEx := rfl
@[simp] theorem afterStages_exMem :
    (afterStages s regs d m).latches.exMem = executeStage s.latches.idEx := rfl
@[simp] theorem afterStages_memWb : (afterStages s regs d m).latches.memWb = m.memWb := rfl
@[simp] theorem afterStages_fault : (afterStages s regs d m).fault = s.fault := rfl

end AfterStages

section WithFetchWord
variable (s : State) (nbits w : Nat)

@[simp] theorem withFetchWord_regs : (s.withFetchWord nbits w).regs = s.regs := rfl
@[simp] theorem withFetchWord_dmem : (s.withFetchWord nbits w).dmem = s.dmem := rfl
@[simp] theorem withFetchWord_pc : (s.withFetchWord nbits w).pc = s.pc + 4#32 := rfl
@[simp] theorem withFetchWord_running : (s.withFetchWord nbits w).running = true := rfl
@[simp] theorem withFetchWord_fault : (s.withFetchWord nbits w).fault = none := rfl
@[simp] theorem withFetchWord_inst :
    (s.withFetchWord nbits w).latches.ifId.inst = tableWord nbits w := rfl

end WithFetchWord

end Sys2Proof.Machine
end

