-- ==== Sys2Proof/Laws/Cycle.lean ====
section
/-! SUPPORT. What each stage and one cycle can do, said once. -/

namespace Sys2Proof.Machine

/-! ### The stages -/

/-- The larger count, as a number. -/
theorem maxCount_toNat (a b : BitVec 8) : (maxCount a b).toNat = max a.toNat b.toNat := by
  unfold maxCount
  split <;> bv_omega

/-- IF either injects a bubble or fetches (R130). -/
theorem fetchStage_ok {s : State} {f : FetchOut} (h : fetchStage s = .ok f) :
    (s.bubblesRemaining ≠ 0#8 ∧
      f = { ifId := { inst := 0#32, pc := s.pc }, pc := s.pc, bubbles := s.bubblesRemaining - 1#8,
            instructionCount := s.instructionCount, fetched := 0 }) ∨
    (s.bubblesRemaining = 0#8 ∧ ∃ w,
      fetchWord s.imem s.params.imemLen (redirect s.pc s.latches.exMem) = .ok w ∧
      f = { ifId := { inst := w, pc := redirect s.pc s.latches.exMem + 4#32 },
            pc := redirect s.pc s.latches.exMem + 4#32, bubbles := 0#8,
            instructionCount := s.instructionCount + 1, fetched := 1 }) := by
  unfold fetchStage at h
  split at h
  · next hb => exact .inl ⟨hb, by simpa using h.symm⟩
  · next hb =>
    have hb : s.bubblesRemaining = 0#8 := by simpa using hb
    simp only at h
    split at h
    · cases h
    · next w hw => exact .inr ⟨hb, w, hw, by simpa [hb] using h.symm⟩

/-- A fetch with a defined outcome succeeds (R47, R48). -/
theorem fetchWord_defined {imem : Memory} {len : Nat} {a : Word} (ha : a.toNat % 4 = 0)
    (hl : len % 4 = 0) :
    fetchWord imem len a = .ok (if a.toNat + 4 ≤ len then readWord imem a.toNat else 0#32) := by
  unfold fetchWord
  rw [if_neg (by omega)]
  split
  · rfl
  · rw [if_pos (by omega)]

/-- IF answers whenever the fetch of the cycle is defined. -/
theorem fetchStage_defined {s : State} (h : FetchDefined s) : ∃ f, fetchStage s = .ok f := by
  unfold fetchStage
  by_cases hb : s.bubblesRemaining = 0#8
  · obtain ⟨ha, hl⟩ := h hb
    simp [hb, fetchWord_defined ha hl]
  · simp [hb]

/-- MEM that answers has passed the checks, and this is what it leaves (R148 to R150). -/
theorem memStage_ok {size : Nat} {dmem : Memory} {ops : OpCounters} {l : ExMem} {m : MemOut}
    (h : memStage size dmem ops l = .ok m) :
    ((l.memRead = true ∨ l.memWrite = true) → dataCheck size l.aluResult = none) ∧
    m.dmem = (if l.memWrite then writeWord dmem l.aluResult.toNat l.storeVal else dmem) ∧
    m.memWb = { regWrite := l.regWrite, memToReg := l.memToReg,
                readData := if l.memRead then readWord dmem l.aluResult.toNat else 0#32,
                aluResult := l.aluResult, reg := l.reg } ∧
    m.ops = { ops with memRead := if l.memRead then ops.memRead + 1 else ops.memRead
                       memWrite := if l.memWrite then ops.memWrite + 1 else ops.memWrite } := by
  unfold memStage at h
  simp only at h
  split at h
  · cases h
  · next hc =>
    cases h
    refine ⟨fun ha => ?_, rfl, rfl, rfl⟩
    rwa [if_pos ha] at hc

/-- MEM that raises has an access whose check gave the record (R52). -/
theorem memStage_error {size : Nat} {dmem : Memory} {ops : OpCounters} {l : ExMem}
    {r : FaultRecord} (h : memStage size dmem ops l = .error r) :
    (l.memRead = true ∨ l.memWrite = true) ∧ dataCheck size l.aluResult = some r := by
  unfold memStage at h
  simp only at h
  split at h
  · next hc =>
    cases h
    split at hc
    · next ha => exact ⟨ha, hc⟩
    · cases hc
  · cases h

/-- The data check passes exactly on aligned addresses inside the memory (R52). -/
theorem dataCheck_none {size : Nat} {a : Word} :
    dataCheck size a = none ↔ a.toNat % 4 = 0 ∧ a.toNat + 4 ≤ size := by
  unfold dataCheck
  split
  · simp_all
  · split <;> simp_all

/-- MEM answers whenever the access waiting in EX/MEM is allowed. -/
theorem memStage_allowed {s : State} {ops : OpCounters} (h : AccessAllowed s) :
    ∃ m, memStage s.params.dmemSize s.dmem ops s.latches.exMem = .ok m := by
  unfold memStage
  by_cases ha : s.latches.exMem.memRead = true ∨ s.latches.exMem.memWrite = true
  · simp [ha, dataCheck_none.2 (h ha)]
  · simp [ha]

section Decode
variable (c : Control) (srcs : List RegNum) (tr : Bool) (w : Word) (s : State) (regs : Registers)
  (f : FetchOut)

/-- ID cancels its word under a data stall (R141). -/
theorem decodeStage_cancel (h : dataStall s srcs ≠ 0#8) :
    decodeStage c srcs tr w s regs f =
      { idEx := latchIdEx s.params.r0Hardwired regs Control.nopRow 0#32 (s.latches.ifId.pc - 4#32)
        ifId := { inst := 0#32, pc := s.latches.ifId.pc - 4#32 }
        pc := s.latches.ifId.pc - 4#32
        bubbles := maxCount (maxCount f.bubbles (dataStall s srcs))
          (controlHazard s.params.haz tr) - 1#8
        instructionCount := f.instructionCount - 1 - f.fetched } := by
  unfold dataStall at h
  simp [decodeStage, dataStall, h]

/-- ID lets its word proceed when there is no data stall (R142, R144, R145). -/
theorem decodeStage_proceed (h : dataStall s srcs = 0#8) :
    decodeStage c srcs tr w s regs f =
      { idEx := latchIdEx s.params.r0Hardwired regs c w s.latches.ifId.pc
        ifId := f.ifId
        pc := f.pc
        bubbles := maxCount (maxCount f.bubbles 0#8) (controlHazard s.params.haz tr)
        instructionCount := f.instructionCount } := by
  unfold dataStall at h
  simp [decodeStage, h]

end Decode

/-! ### One cycle -/

/-- A cycle that answers a next state either raised MEM's fault or completed all stages. -/
theorem decodeCycle_next {c : Control} {srcs : List RegNum} {tr : Bool} {w : Word} {s t : State}
    (h : decodeCycle c srcs tr w s = .next t) :
    ∃ f, fetchStage s = .ok f ∧
      ((∃ r, memStage s.params.dmemSize s.dmem (executeCount s.ops s.latches.idEx)
          s.latches.exMem = .error r ∧ t = s.raise r) ∨
       (∃ m, memStage s.params.dmemSize s.dmem (executeCount s.ops s.latches.idEx)
          s.latches.exMem = .ok m ∧
        t = settleRunning (afterStages s (regsInDecode s)
          (decodeStage c srcs tr w s (regsInDecode s) f) m))) := by
  unfold decodeCycle at h
  split at h
  · cases h
  · next f hf =>
    refine ⟨f, hf, ?_⟩
    split at h
    · next r hr => exact .inl ⟨r, hr, by simpa using h.symm⟩
    · next m hm => exact .inr ⟨m, hm, by simpa [regsInDecode] using h.symm⟩

/-- A cycle whose fetch is defined and whose data access is allowed completes. -/
theorem decodeCycle_completes {s : State} (hf : FetchDefined s) (ha : AccessAllowed s)
    (c : Control) (srcs : List RegNum) (tr : Bool) (w : Word) :
    ∃ f m, fetchStage s = .ok f ∧
      memStage s.params.dmemSize s.dmem (executeCount s.ops s.latches.idEx) s.latches.exMem
        = .ok m ∧
      decodeCycle c srcs tr w s = .next (settleRunning (afterStages s (regsInDecode s)
        (decodeStage c srcs tr w s (regsInDecode s) f) m)) := by
  obtain ⟨f, hf⟩ := fetchStage_defined hf
  obtain ⟨m, hm⟩ := memStage_allowed (ops := executeCount s.ops s.latches.idEx) ha
  exact ⟨f, m, hf, hm, by simp [decodeCycle, hf, hm, regsInDecode]⟩

/-- `isTransfer` of an encoded instruction: `beq` and `j` (R113). -/
theorem isTransfer_encode (i : Instr) :
    isTransfer (encode i) = match i with
      | .beq .. | .j .. => true
      | _ => false := by
  have key : ∀ w : Word, opcodeField w = opcodeBeq ∨ opcodeField w = opcodeJ → w ≠ 0#32 := by
    rintro w h rfl
    revert h
    decide
  cases i with
  | beq rs rt imm =>
    have h0 := key (iFormat opcodeBeq rs rt imm) (.inl (opcodeField_iFormat ..))
    simp [isTransfer, encode, h0]
  | j n =>
    have h0 := key (jFormat opcodeJ n) (.inr (opcodeField_jFormat ..))
    simp [isTransfer, encode, h0]
  | nop => rfl
  | _ => simp [isTransfer, encode, opcodeR, opcodeLw, opcodeSw, opcodeBeq, opcodeJ]

/-- Every meaning is the cycle of its own control row, source set and word. -/
theorem exec_eq (i : Instr) (s : State) :
    exec i s = decodeCycle (Control.ofInstr i) (sourcesOf i) (isTransfer (encode i)) (encode i) s := by
  rw [isTransfer_encode]
  cases i <;> rfl

/-! ### One step -/

/-- What a step that answers a next state did: nothing, on a stopped core; a `DecodeError`; or the
cycle of the decoded instruction. -/
theorem step_next {s t : State} (h : step s = .next t) :
    (¬s.Live ∧ t = s) ∨
    (s.Live ∧ (∃ e, decode s.latches.ifId.inst = .error e) ∧
      t = s.raise (.decodeError (s.latches.ifId.pc - 4#32) s.latches.ifId.inst)) ∨
    (s.Live ∧ ∃ i, decode s.latches.ifId.inst = .ok i ∧ exec i s = .next t) := by
  unfold step at h
  split at h
  · next hl =>
    split at h
    · next i hi => exact .inr (.inr ⟨hl, i, hi, h⟩)
    · next e he => exact .inr (.inl ⟨hl, ⟨e, he⟩, by simpa using h.symm⟩)
  · next hl => exact .inl ⟨hl, by simpa using h.symm⟩

/-- What a completed cycle left, stage by stage. -/
theorem cycleCompletes_inv {s t : State} (h : CycleCompletes s t) :
    s.Live ∧ ∃ i f m, decode s.latches.ifId.inst = .ok i ∧ fetchStage s = .ok f ∧
      memStage s.params.dmemSize s.dmem (executeCount s.ops s.latches.idEx) s.latches.exMem
        = .ok m ∧
      t = settleRunning (afterStages s (regsInDecode s)
        (decodeStage (Control.ofInstr i) (sourcesOf i) (isTransfer (encode i)) (encode i) s
          (regsInDecode s) f) m) := by
  obtain ⟨hs, hc⟩ := h
  rcases step_next hs with ⟨_, rfl⟩ | ⟨_, _, rfl⟩ | ⟨hl, i, hi, he⟩
  · omega
  · simp at hc
  · rw [exec_eq] at he
    obtain ⟨f, hf, ⟨r, _, rfl⟩ | ⟨m, hm, ht⟩⟩ := decodeCycle_next he
    · simp at hc
    · exact ⟨hl, i, f, m, hi, hf, hm, ht⟩

/-- A step that answers a next state left the state, raised a fault, or completed a cycle. -/
theorem step_trichotomy {s t : State} (h : step s = .next t) :
    (¬s.Live ∧ t = s) ∨ (s.Live ∧ ∃ r, t = s.raise r) ∨ CycleCompletes s t := by
  rcases step_next h with h' | ⟨hl, _, rfl⟩ | ⟨hl, i, hi, he⟩
  · exact .inl h'
  · exact .inr (.inl ⟨hl, _, rfl⟩)
  · rw [exec_eq] at he
    obtain ⟨f, hf, ⟨r, _, rfl⟩ | ⟨m, hm, rfl⟩⟩ := decodeCycle_next he
    · exact .inr (.inl ⟨hl, r, rfl⟩)
    · exact .inr (.inr ⟨h, rfl⟩)

/-- A run of one step more is the step and the rest of the run. -/
theorem run_succ {k : Nat} {s t : State} :
    Sys2Proof.core.run (k + 1) s = .next t ↔
      ∃ u, step s = .next u ∧ Sys2Proof.core.run k u = .next t := by
  have e : Sys2Proof.core.step s = step s := rfl
  simp only [Host.Core.run, e]
  cases step s <;> simp

/-! ### The launch -/

/-- An accepted launch is the fresh state of buffers that fit, with `running` settled (R230, R233). -/
theorem launch_next {a : LaunchArgs} {s : State} (h : launch a = .next s) :
    ∃ imem seed, a.imem = .bytes imem ∧ (a.dseed = .bytes seed ∨ (a.dseed = .notGiven ∧ seed = [])) ∧
      imem.length % 4 = 0 ∧ seed.length ≤ a.dmemSize ∧
      s = settleRunning (freshState a imem seed) := by
  have key : ∀ imem seed, launchWith a imem seed = .next s →
      imem.length % 4 = 0 ∧ seed.length ≤ a.dmemSize ∧
        s = settleRunning (freshState a imem seed) := by
    intro imem seed h
    unfold launchWith at h
    split at h
    · cases h
    · split at h
      · cases h
      · cases h
        exact ⟨by omega, by omega, rfl⟩
  unfold launch at h
  split at h
  · next imem seed hi hd => exact ⟨imem, seed, hi, .inl hd, key _ _ h⟩
  · next imem hi hd => exact ⟨imem, [], hi, .inr ⟨hd, rfl⟩, key _ _ h⟩
  · cases h
  · cases h

end Sys2Proof.Machine
end

