-- ==== Sys2Proof/Laws/PerInstr.lean ====
section
/-! SUPPORT. Per instruction: the encoded word matches the instruction's row of the opcode table
(spec/30_encoding.md R70). -/

namespace Sys2Proof.Laws.MatchesRow

/-- The encoding of `i` has the fixed bits of its row. -/
def Statement (i : Instr) : Prop := encode i &&& (matchMask i).2 = (matchMask i).1

/-- The R-format mask keeps the opcode and the funct. -/
theorem and_rMask (w : Word) :
    w &&& 0xFC00003F#32 = (opcodeField w ++ 0#20 ++ functField w).cast rfl := by
  apply BitVec.eq_of_getLsbD_eq
  intro i hi
  simp only [BitVec.getLsbD_and, opcodeField, functField, BitVec.getLsbD_cast,
    BitVec.getLsbD_append, BitVec.getLsbD_extractLsb']
  interval_cases i <;> simp

/-- The I- and J-format mask keeps the opcode. -/
theorem and_iMask (w : Word) : w &&& 0xFC000000#32 = (opcodeField w ++ 0#26).cast rfl := by
  apply BitVec.eq_of_getLsbD_eq
  intro i hi
  simp only [BitVec.getLsbD_and, opcodeField, BitVec.getLsbD_cast, BitVec.getLsbD_append,
    BitVec.getLsbD_extractLsb']
  interval_cases i <;> simp

theorem add (rd rs rt : RegNum) (shamt : BitVec 5) : Statement (.add rd rs rt shamt) := by
  simp only [Statement, encode, matchMask, and_rMask, opcodeField_rFormat, functField_rFormat]
  decide
theorem sub (rd rs rt : RegNum) (shamt : BitVec 5) : Statement (.sub rd rs rt shamt) := by
  simp only [Statement, encode, matchMask, and_rMask, opcodeField_rFormat, functField_rFormat]
  decide
theorem and (rd rs rt : RegNum) (shamt : BitVec 5) : Statement (.and rd rs rt shamt) := by
  simp only [Statement, encode, matchMask, and_rMask, opcodeField_rFormat, functField_rFormat]
  decide
theorem or (rd rs rt : RegNum) (shamt : BitVec 5) : Statement (.or rd rs rt shamt) := by
  simp only [Statement, encode, matchMask, and_rMask, opcodeField_rFormat, functField_rFormat]
  decide
theorem slt (rd rs rt : RegNum) (shamt : BitVec 5) : Statement (.slt rd rs rt shamt) := by
  simp only [Statement, encode, matchMask, and_rMask, opcodeField_rFormat, functField_rFormat]
  decide
theorem lw (rt rs : RegNum) (imm : BitVec 16) : Statement (.lw rt rs imm) := by
  simp only [Statement, encode, matchMask, and_iMask, opcodeField_iFormat]
  decide
theorem sw (rt rs : RegNum) (imm : BitVec 16) : Statement (.sw rt rs imm) := by
  simp only [Statement, encode, matchMask, and_iMask, opcodeField_iFormat]
  decide
theorem beq (rs rt : RegNum) (imm : BitVec 16) : Statement (.beq rs rt imm) := by
  simp only [Statement, encode, matchMask, and_iMask, opcodeField_iFormat]
  decide
theorem j (target : BitVec 26) : Statement (.j target) := by
  simp only [Statement, encode, matchMask, and_iMask, opcodeField_jFormat]
  decide
theorem nop : Statement .nop := by
  unfold Statement; decide

end Sys2Proof.Laws.MatchesRow
end

