-- ==== Sys2Proof/Laws/Text.lean ====
section
/-! SUPPORT. Assembler text: a printed number, register or address reads back, and printed operands are
cut where they were joined. -/

namespace Sys2Proof.Machine

/-! ### Numbers -/

theorem natText_isDigit {n : Nat} {c : Char} (h : c ∈ natText n) : c.isDigit = true :=
  Nat.isDigit_of_mem_toDigits (by decide) (by decide) h

theorem natText_ne_nil (n : Nat) : natText n ≠ [] := by
  intro h
  by_cases hn : n < 10
  · simp [natText, Nat.toDigits_of_lt_base hn] at h
  · simp [natText, Nat.toDigits_of_base_le (by decide : 1 < 10) (by omega : 10 ≤ n)] at h

theorem digitValue_digitChar {d : Nat} (h : d < 10) : digitValue d.digitChar = some d := by
  interval_cases d <;> decide

theorem readDigits_append (base acc : Nat) (xs ys : Text) :
    readDigits base acc (xs ++ ys) = (readDigits base acc xs).bind fun v => readDigits base v ys := by
  induction xs generalizing acc with
  | nil => rfl
  | cons c xs ih =>
    simp only [List.cons_append, readDigits]
    split
    · split
      · exact ih _
      · rfl
    · rfl

/-- The decimal digits of a number read back as the number. -/
theorem readDigits_natText (n : Nat) : readDigits 10 0 (natText n) = some n := by
  induction n using Nat.strong_induction_on with
  | _ n ih =>
    unfold natText at ih ⊢
    by_cases hn : n < 10
    · rw [Nat.toDigits_of_lt_base hn]
      simp [readDigits, digitValue_digitChar hn, hn]
    · have hd : n % 10 < 10 := Nat.mod_lt _ (by decide)
      rw [Nat.toDigits_of_base_le (by decide) (by omega), readDigits_append, ih (n / 10) (by omega)]
      simp only [Option.bind_some, readDigits, digitValue_digitChar hd, hd, if_true]
      congr 1
      omega

theorem readDecimal_natText (n : Nat) : readDecimal (natText n) = some n := by
  have h := readDigits_natText n
  cases ht : natText n with
  | nil => exact absurd ht (natText_ne_nil n)
  | cons c cs => rw [ht] at h; exact h

/-- A printed number is read as decimal: its second character is no `x`. -/
theorem readNat_natText (n : Nat) : readNat (natText n) = some n := by
  have h := readDecimal_natText n
  unfold readNat
  split
  · next c cs ht =>
    have hx : 'x'.isDigit = true := natText_isDigit (n := n) (by rw [ht]; simp)
    exact absurd hx (by decide)
  · exact h

/-- A printed signed number reads back. -/
theorem readInt_intText (z : Int) : readInt (intText z) = some z := by
  cases z with
  | ofNat n =>
    have h := readNat_natText n
    simp only [intText]
    unfold readInt
    split
    · next cs ht =>
      have hx : '-'.isDigit = true := natText_isDigit (n := n) (by rw [ht]; simp)
      exact absurd hx (by decide)
    · next cs ht =>
      have hx : '+'.isDigit = true := natText_isDigit (n := n) (by rw [ht]; simp)
      exact absurd hx (by decide)
    · rw [h]; rfl
  | negSucc n =>
    simp only [intText, readInt, readNat_natText]
    congr 1

theorem readRegister_regText (n : Nat) : readRegister (regText n) = some n := readDecimal_natText n

/-! ### Operands -/

/-- A piece of text that is one operand: not empty, no comma and no space in it. -/
def IsOperand (t : Text) : Prop := t ≠ [] ∧ ∀ c ∈ t, c ≠ ',' ∧ c ≠ ' '

theorem natText_ne {n : Nat} {c d : Char} (h : c ∈ natText n) (hd : d.isDigit = false) : c ≠ d := by
  rintro rfl
  rw [natText_isDigit h] at hd
  cases hd

theorem isOperand_intText (z : Int) : IsOperand (intText z) := by
  cases z with
  | ofNat n =>
    exact ⟨natText_ne_nil n, fun c hc => ⟨natText_ne hc (by decide), natText_ne hc (by decide)⟩⟩
  | negSucc n =>
    refine ⟨by simp [intText], fun c hc => ?_⟩
    rcases List.mem_cons.1 hc with rfl | hc
    · decide
    · exact ⟨natText_ne hc (by decide), natText_ne hc (by decide)⟩

theorem isOperand_regText (n : Nat) : IsOperand (regText n) := by
  refine ⟨by simp [regText], fun c hc => ?_⟩
  rcases List.mem_cons.1 hc with rfl | hc
  · decide
  · exact ⟨natText_ne hc (by decide), natText_ne hc (by decide)⟩

/-- The address operand of a load or store. -/
theorem isOperand_address (z : Int) (n : Nat) :
    IsOperand (intText z ++ '(' :: regText n ++ [')']) := by
  refine ⟨by simp, fun c hc => ?_⟩
  simp only [List.mem_append, List.mem_cons, List.not_mem_nil, or_false] at hc
  rcases hc with (hc | rfl | hc) | rfl
  · exact (isOperand_intText z).2 c hc
  · decide
  · exact (isOperand_regText n).2 c hc
  · decide

theorem intText_ne_paren {z : Int} {c : Char} (h : c ∈ intText z) : c ≠ '(' := by
  cases z with
  | ofNat n => exact natText_ne h (by decide)
  | negSucc n =>
    rcases List.mem_cons.1 h with rfl | h
    · decide
    · exact natText_ne h (by decide)

/-- A printed `imm($rs)` reads back. -/
theorem readAddress_text (z : Int) (n : Nat) :
    readAddress (intText z ++ '(' :: regText n ++ [')']) = some (z, n) := by
  have hall : ∀ c ∈ intText z, (decide (c ≠ '(')) = true := fun c hc => by
    simpa using intText_ne_paren hc
  have ht : (intText z ++ ('(' :: (regText n ++ [')']))).takeWhile (· ≠ '(') = intText z := by
    rw [List.takeWhile_append_of_pos hall]; simp
  have hd : (intText z ++ ('(' :: (regText n ++ [')']))).dropWhile (· ≠ '(')
      = '(' :: (regText n ++ [')']) := by
    rw [List.dropWhile_append_of_pos hall]; simp
  unfold readAddress
  rw [List.append_assoc, List.cons_append, ht, hd]
  simp only [readInt_intText]
  simp [readRegister_regText]

/-- Inside an operand, text is copied up to what follows. -/
theorem cutOperands_copy {t : Text} (h : ∀ c ∈ t, c ≠ ',' ∧ c ≠ ' ') (cur rest : Text) :
    cutOperands cur false (t ++ rest) = cutOperands (cur ++ t) false rest := by
  induction t generalizing cur with
  | nil => simp
  | cons c t ih =>
    have hc := (h c (by simp)).1
    simp only [List.cons_append, cutOperands, hc, if_false, Bool.false_eq_true, and_false]
    rw [ih fun d hd => h d (by simp [hd])]
    simp

/-- An operand after a space, up to what follows. -/
theorem cutOperands_operand {t : Text} (h : IsOperand t) (rest : Text) :
    cutOperands [] true (' ' :: (t ++ rest)) = cutOperands t false rest := by
  obtain ⟨hne, hall⟩ := h
  cases t with
  | nil => exact absurd rfl hne
  | cons c t =>
    obtain ⟨h1, h2⟩ := hall c (by simp)
    have key := cutOperands_copy (t := t) (fun d hd => hall d (by simp [hd])) [c] rest
    simp only [cutOperands, List.cons_append, h1, h2, if_false, false_and, List.nil_append]
    simpa [cutOperands] using key

/-- The end of the line ends the last operand. -/
theorem cutOperands_end (t : Text) : cutOperands t false [] = [t] := rfl

/-- A comma ends an operand. -/
theorem cutOperands_comma (t rest : Text) :
    cutOperands t false (',' :: rest) = t :: cutOperands [] true rest := by
  simp [cutOperands]

/-- A printed statement's operands are cut where they were joined: one, two or three. -/
theorem cutOperands_one {t : Text} (h : IsOperand t) :
    cutOperands [] true (' ' :: List.intercalate [',', ' '] [t]) = [t] := by
  have := cutOperands_operand h []
  simpa [List.intercalate, cutOperands_end] using this

theorem cutOperands_two {t u : Text} (ht : IsOperand t) (hu : IsOperand u) :
    cutOperands [] true (' ' :: List.intercalate [',', ' '] [t, u]) = [t, u] := by
  have := cutOperands_operand ht (',' :: ' ' :: (u ++ []))
  rw [cutOperands_comma, cutOperands_operand hu, cutOperands_end] at this
  simpa [List.intercalate] using this

theorem cutOperands_three {t u v : Text} (ht : IsOperand t) (hu : IsOperand u) (hv : IsOperand v) :
    cutOperands [] true (' ' :: List.intercalate [',', ' '] [t, u, v]) = [t, u, v] := by
  have := cutOperands_operand ht (',' :: ' ' :: (u ++ ',' :: ' ' :: (v ++ [])))
  rw [cutOperands_comma, cutOperands_operand hu, cutOperands_comma, cutOperands_operand hv,
    cutOperands_end] at this
  simpa [List.intercalate] using this

/-- A line is cut at the first space after its mnemonic. -/
theorem mnemonic_cut {m : Text} (h : ∀ c ∈ m, c ≠ ' ') (rest : Text) :
    (m ++ ' ' :: rest).takeWhile (· ≠ ' ') = m ∧
    (m ++ ' ' :: rest).dropWhile (· ≠ ' ') = ' ' :: rest := by
  have hall : ∀ c ∈ m, (decide (c ≠ ' ')) = true := fun c hc => by simpa using h c hc
  constructor
  · rw [List.takeWhile_append_of_pos hall]; simp
  · rw [List.dropWhile_append_of_pos hall]; simp

end Sys2Proof.Machine
end

