-- ==== Sys2Proof/Tests/Slice0.lean ====
section
/-! SUPPORT. The model's own tests: the range checks, the decoder on words of the spec, one step of each
instruction, and for every statement with hypotheses a state that meets them. Expected values are those of
spec/95_test_vectors.md or of the rule cited. -/

namespace Sys2Proof.Tests

open Sys2Proof.Machine

/-! ### Helpers -/

/-- The state the step answers. -/
def after (s : State) : State :=
  match step s with
  | .next t => t
  | _ => s

/-- A few steps, for states a little way into a program. -/
def cycles : Nat → State → State
  | 0, s => s
  | k + 1, s => cycles k (after s)

/-- Whether the step is a completed cycle. -/
def completes (s : State) : Bool :=
  match step s with
  | .next t => t.cycleCount == s.cycleCount + 1
  | _ => false

theorem completes_after {s : State} (h : completes s = true) : CycleCompletes s (after s) := by
  unfold completes at h
  unfold CycleCompletes after
  cases hs : step s <;> simp_all

/-- The register file with the listed values. -/
def registers (vs : List (RegNum × Word)) : Registers :=
  vs.foldl (fun r v => r.set v.1.toNat v.2) Registers.zero

/-- The state a launch of the program leaves. -/
def launched (p : List Instr) (vs : List (RegNum × Word)) (seed : List Byte := []) : State :=
  match launch { imem := .bytes (p.flatMap fun i => bytesOfWord (encode i)), dseed := .bytes seed,
                 initRegs := registers vs } with
  | .next s => s
  | _ => State.reset

/-- The instruction alone, in IF/ID. -/
def placed (i : Instr) (vs : List (RegNum × Word)) : State :=
  { State.reset.withFetchWord 32 (encode i).toNat with regs := registers vs }

/-- The instruction alone, in ID/EX. -/
def inEx (i : Instr) (vs : List (RegNum × Word)) : State := after (placed i vs)

/-- The instruction alone, in EX/MEM. -/
def inMem (i : Instr) (vs : List (RegNum × Word)) : State := after (inEx i vs)

/-- The instruction alone, in MEM/WB. -/
def inWb (i : Instr) (vs : List (RegNum × Word)) : State := after (inMem i vs)

/-! ### Range checks: one ill-formed statement for each (R79 to R82) -/

theorem test_rd_out_of_range : assemble 0 (.alu .add 32 0 0) = none := by decide
theorem test_rs_out_of_range : assemble 0 (.alu .sub 0 32 0) = none := by decide
theorem test_rt_out_of_range : assemble 0 (.alu .slt 0 0 32) = none := by decide
theorem test_load_register_out_of_range : assemble 0 (.mem .lw 32 0 0) = none := by decide
theorem test_load_base_out_of_range : assemble 0 (.mem .lw 1 0 32) = none := by decide
theorem test_displacement_too_large : assemble 0 (.mem .lw 1 32768 0) = none := by decide
theorem test_displacement_too_small : assemble 0 (.mem .sw 1 (-32769) 0) = none := by decide
theorem test_branch_rs_out_of_range : assemble 0 (.beq 32 0 0) = none := by decide
theorem test_branch_rt_out_of_range : assemble 0 (.beq 0 32 0) = none := by decide
theorem test_branch_offset_too_large : assemble 0 (.beq 0 0 32768) = none := by decide
theorem test_branch_label_rs_out_of_range : assemble 0 (.beqTo 32 0 4) = none := by decide
theorem test_branch_label_rt_out_of_range : assemble 0 (.beqTo 0 32 4) = none := by decide
theorem test_branch_label_misaligned : assemble 0 (.beqTo 0 0 6) = none := by decide
theorem test_branch_label_too_far : assemble 0 (.beqTo 0 0 0x20004) = none := by decide
theorem test_jump_field_too_large : assemble 0 (.j 67108864) = none := by decide
theorem test_jump_field_negative : assemble 0 (.j (-1)) = none := by decide
theorem test_jump_label_misaligned : assemble 0 (.jTo 6) = none := by decide
theorem test_jump_label_other_region : assemble 0 (.jTo 0x10000000) = none := by decide
theorem test_operands_in_range : assemble 0 (.mem .sw 31 (-32768) 31) = some (.sw 31 31 0x8000) := by
  decide

/-! ### Decoding: words of spec/95_test_vectors.md 2.1 and 3.3 -/

theorem test_decode_add : decode 0b000000_00010_00011_00001_00000_100000 = .ok (.add 1 2 3 0) := by
  decide
theorem test_decode_add_shamt : decode 0x00430960 = .ok (.add 1 2 3 5) := by decide
theorem test_decode_sub : decode 0b000000_00001_00010_00110_00000_100010 = .ok (.sub 6 1 2 0) := by
  decide
theorem test_decode_and : decode 0b000000_00001_00010_00111_00000_100100 = .ok (.and 7 1 2 0) := by
  decide
theorem test_decode_and_zero : decode 0x00000024 = .ok (.and 0 0 0 0) := by decide
theorem test_decode_or : decode 0b000000_00001_00010_01000_00000_100101 = .ok (.or 8 1 2 0) := by
  decide
theorem test_decode_slt : decode 0b000000_11110_11101_11111_00000_101010 = .ok (.slt 31 30 29 0) := by
  decide
theorem test_decode_lw : decode 0b100011_00010_00001_1111111111111111 = .ok (.lw 1 2 0xFFFF) := by
  decide
theorem test_decode_sw : decode 0b101011_11111_11111_1000000000000000 = .ok (.sw 31 31 0x8000) := by
  decide
theorem test_decode_beq : decode 0b000100_00001_00010_0111111111111111 = .ok (.beq 1 2 0x7FFF) := by
  decide
theorem test_decode_j : decode 0b000010_11111111111111111111111111 = .ok (.j 0x3FFFFFF) := by decide
theorem test_decode_nop : decode 0 = .ok .nop := by decide
theorem test_decode_funct_1 : decode 0x00000001 = .error (.unknownFunct 1) := by decide
theorem test_decode_funct_0 : decode 0x00011080 = .error (.unknownFunct 0) := by decide
theorem test_decode_opcode_3F : decode 0xFC000000 = .error (.unknownOpcode 0x3F) := by decide
theorem test_decode_bytes : decodeBytes [0x8C, 0x01, 0x00, 0x04, 0xFF] = .ok (.lw 1 0 4, [0xFF]) := by
  decide
theorem test_decode_bytes_truncated : decodeBytes [0x8C, 0x01, 0x00] = .error .truncated := by decide
theorem test_table_word : decodeTableWord 32 0x0022182A = some (.slt 3 1 2 0) := by decide
theorem test_table_word_illegal : decodeTableWord 32 0x00000001 = none := by decide
theorem test_operand_counts : operandCount (.sw 1 2 3) = 3 ∧ operandCount (.j 4) = 1 ∧ operandCount .nop = 0 := by
  decide
theorem test_encode_lw : encode (.lw 1 2 0xFFFF) = 0x8C41FFFF := by decide
theorem test_encode_beq : encode (.beq 1 2 0x8000) = 0x10228000 := by decide

/-! ### Text (R79 to R84) -/

theorem test_text_of_add :
    decodeToText 0x00211020 = .ok "add $2, $1, $1".toList := by decide
theorem test_text_of_lw : decodeToText 0x8C41FFFF = .ok "lw $1, -1($2)".toList := by decide
theorem test_text_illegal : decodeToText 0x00000001 = .error (.unknownFunct 1) := by decide
theorem test_assemble_line : assembleLine [] 0 "sw $31,-32768($31)".toList = some 0xAFFF8000 := by
  decide
theorem test_assemble_label :
    assembleLine [(['L'], 0x10)] 4 "beq $1, $2, L".toList = some 0x10220002 := by decide

/-! ### Control unit, ALU, hazard unit (spec/95_test_vectors.md 2.2 to 2.4) -/

theorem test_control_nop : controlUnit 0 = some Control.nopRow := by decide
theorem test_control_slt : controlUnit 0x0022182A = some Control.rTypeRow := by decide
theorem test_alu_control_none : aluControl 0b10#2 0x21#6 = none := by decide
theorem test_alu_code_bits : AluCode.sub.bits = 0b0110 ∧ AluCode.slt.bits = 0b0111 := by decide
theorem test_alu_none_is_zero : alu none 0x7B 0x1C8 = 0 := by decide

/-- A producer of `$1` in the named latch, bubbles elsewhere. -/
def producerInExMem (writes : Bool) (r : RegNum) : Latches :=
  { Latches.reset with exMem := { Latches.reset.exMem with regWrite := writes, reg := r } }
def producerInMemWb (r : RegNum) : Latches :=
  { Latches.reset with memWb := { Latches.reset.memWb with regWrite := true, reg := r } }
def loadInIdEx (r : RegNum) : Latches :=
  { Latches.reset with idEx := { Latches.reset.idEx with ctrl := Control.lwRow, rt := r } }

theorem test_hazard_load : detected {} 0x00211020 (loadInIdEx 1) = 2 := by decide
theorem test_hazard_exMem : detected {} (encode (.add 4 1 1 0)) (producerInExMem true 1) = 2 := by decide
theorem test_hazard_memWb : detected {} (encode (.add 4 1 1 0)) (producerInMemWb 1) = 1 := by decide
theorem test_hazard_no_write : detected {} (encode (.add 4 1 1 0)) (producerInExMem false 1) = 0 := by
  decide
theorem test_hazard_destination_is_no_source :
    detected {} (encode (.lw 5 1 0)) (producerInExMem true 5) = 0 := by decide
theorem test_hazard_store_source : detected {} (encode (.sw 5 1 0)) (producerInExMem true 5) = 2 := by
  decide
/-- A store's sources are its base `$1` and its value `$5`, each on its own (R112). -/
theorem test_sources_sw : sources (encode (.sw 5 1 0)) = [1, 5] := by decide
/-- Four different counts: each condition has its own (R111, R113). -/
theorem test_hazard_own_counts :
    detected ⟨5, 6, 7, 8⟩ (encode (.add 4 1 2 0)) (producerInExMem true 2) = 5 ∧
    detected ⟨5, 6, 7, 8⟩ (encode (.add 4 1 2 0)) (producerInMemWb 2) = 6 ∧
    detected ⟨5, 6, 7, 8⟩ (encode (.add 4 1 2 0)) (loadInIdEx 2) = 7 ∧
    detected ⟨5, 6, 7, 8⟩ (encode (.beq 1 2 0)) Latches.reset = 8 := by decide
theorem test_hazard_j : detected {} (encode (.j 4)) (loadInIdEx 0) = 1 := by decide
theorem test_hazard_nop : detected {} 0 (producerInExMem true 0) = 0 := by decide

/-! ### Memory and fetch -/

theorem test_write_zero_unlists : writeByte [(3, 5), (4, 6)] 3 0 = [(4, 6)] := by decide
theorem test_store_word_bytes :
    writeWord [] 4 0xFFFFFFFD = [(4, 0xFF), (5, 0xFF), (6, 0xFF), (7, 0xFD)] := by decide
theorem test_fetch_last_word : fetchWord [(4, 0xAB)] 8 4 = .ok 0xAB000000 := by rfl
theorem test_fetch_past_end : fetchWord [] 8 0xFFFFFFFC = .ok 0 := by rfl
theorem test_fetch_misaligned : fetchWord [] 8 2 = .error (.undefinedFetch 2) := by rfl
theorem test_fetch_partial : fetchWord [] 6 4 = .error (.undefinedFetch 4) := by rfl
theorem test_r0_reads_zero : readReg true (registers [(0, 7)]) 0 = 0 := by decide
theorem test_r0_kept : readReg false (registers [(0, 7)]) 0 = 7 := by decide

/-! ### Launch (R44, R233) -/

/-- `State.reset` is the launch with every default and an empty instruction memory (log entry 7). -/
theorem test_reset_is_default_launch : launch { imem := .bytes [] } = .next State.reset := by rfl
theorem test_launch_odd_length : launch { imem := .bytes [0] } = .refused (.imemLengthNotWords 1) := by
  rfl
theorem test_launch_long_seed :
    launch { imem := .bytes [], dmemSize := 1, dseed := .bytes [1, 2] } = .refused (.seedTooLong 2 1) := by
  rfl
theorem test_launch_no_imem : launch { imem := .notGiven } = .refused (.missingInput .imem) := by rfl
theorem test_launch_unreadable_seed :
    launch { imem := .bytes [], dseed := .unreadable } = .refused (.missingInput .dseed) := by rfl
/-- Several errors at once: the order is the model's (log entry 19). -/
theorem test_launch_order_buffers :
    launch { imem := .notGiven, dseed := .unreadable } = .refused (.missingInput .imem) := by rfl
theorem test_launch_order_lengths :
    launch { imem := .bytes [0], dmemSize := 1, dseed := .bytes [1, 2] }
      = .refused (.imemLengthNotWords 1) := by rfl
theorem test_fault_codes : (FaultRecord.decodeError 0 1).code = 1 ∧ (FaultRecord.dataOutOfBounds 0).code = 2 ∧
    (FaultRecord.misalignedData 2).code = 3 := by decide
theorem test_status_faulted :
    ({ State.reset with fault := some (.misalignedData 2) } : State).status
      = .faulted (.misalignedData 2) := by decide
theorem test_observed_running : (observe State.reset).running = false := by decide
theorem test_status_reset : State.reset.status = .haltedClean := by decide

/-! ### One step of each instruction -/

/-- R161: `0xFFFFFFFF + 1 = 0`. -/
theorem test_add_wraps :
    (after (inEx (.add 1 2 3 0) [(2, 0xFFFFFFFF), (3, 1)])).latches.exMem.aluResult = 0 ∧
    (after (inEx (.add 1 2 3 0) [(2, 0xFFFFFFFF), (3, 1)])).latches.exMem.zeroFlag = true := by decide
/-- Section 1.3: 5 + 7 = 12 reaches `$1` in WB. -/
theorem test_add_writes : (after (inWb (.add 1 2 3 0) [(2, 5), (3, 7)])).regs[1] = 12 := by decide
theorem test_sub_wraps :
    (after (inEx (.sub 1 0 3 0) [(3, 1)])).latches.exMem.aluResult = 0xFFFFFFFF ∧
    (after (inEx (.sub 1 0 3 0) [(3, 1)])).ops = { OpCounters.zero with sub := 1 } := by decide
theorem test_and_bits :
    (after (inEx (.and 1 2 3 0) [(2, 0xF0F0F0F0), (3, 0xFF00FF00)])).latches.exMem.aluResult
      = 0xF000F000 := by decide
theorem test_or_bits :
    (after (inEx (.or 1 2 3 0) [(2, 0xF0F0F0F0), (3, 0x0F0F0F0F)])).latches.exMem.aluResult
      = 0xFFFFFFFF := by decide
theorem test_slt_unsigned :
    (after (inEx (.slt 1 2 3 0) [(2, 1), (3, 0x80000000)])).latches.exMem.aluResult = 1 := by decide
theorem test_slt_large_left :
    (after (inEx (.slt 1 2 3 0) [(2, 0xFFFFFFFD), (3, 5)])).latches.exMem.aluResult = 0 := by decide
/-- Section 1.5: the word 00 00 00 05 at address 0. -/
theorem test_lw_reads :
    (after { inMem (.lw 1 0 0) [] with dmem := [(3, 5)] }).latches.memWb.readData = 5 := by decide
/-- R171: offset -4 from base 0 faults. -/
theorem test_lw_out_of_bounds :
    (after (inMem (.lw 1 0 0xFFFC) [])).fault = some (.dataOutOfBounds 0xFFFFFFFC) := by decide
/-- Section 1.6. -/
theorem test_sw_writes :
    (after (inMem (.sw 1 0 4) [(1, 0xFFFFFFFD)])).dmem
      = [(4, 0xFF), (5, 0xFF), (6, 0xFF), (7, 0xFD)] := by decide
theorem test_sw_misaligned :
    (after (inMem (.sw 1 0 2) [])).fault = some (.misalignedData 2) := by decide
/-- Section 1.4: `beq $0, $0, 2` at 0 goes to 0xC. -/
theorem test_beq_target :
    (after (inEx (.beq 0 0 2) [])).latches.exMem.branchAddr = 0xC ∧
    (after (inEx (.beq 0 0 2) [])).latches.exMem.zeroFlag = true := by decide
theorem test_beq_stalls : (after (placed (.beq 0 0 2) [])).bubblesRemaining = 1 := by decide
theorem test_j_target :
    (after (inEx (.j 0x3FFFFFF) [])).latches.exMem.jumpAddr = 0x0FFFFFFC := by decide
theorem test_j_stalls : (after (placed (.j 3) [])).bubblesRemaining = 1 := by decide
theorem test_nop_counts_nothing :
    (after (after (launched [.nop, .nop, .nop] []))).ops = OpCounters.zero := by decide
/-- An undecodable word reports its address and itself (R137). -/
theorem test_decode_error :
    (after (State.reset.withFetchWord 32 0x00011080)).fault = some (.decodeError 0 0x00011080) := by
  decide

/-! ### Witnesses: states that meet the hypotheses of the statements -/

/-- `lw $1, 0($0)` in ID/EX, the dependent `add $2, $1, $1` in IF/ID. -/
def loadUse : State := cycles 2 (launched [.lw 1 0 0, .add 2 1 1 0] [] [0, 0, 0, 5])
/-- `add $1, $2, $3` in MEM/WB, the dependent `add $4, $1, $1` in IF/ID. -/
def distanceThree : State :=
  cycles 4 (launched [.add 1 2 3 0, .nop, .nop, .add 4 1 1 0] [(2, 5), (3, 7)])
/-- `sw $1, 4($0)` in EX/MEM, `lw $2, 4($0)` in ID/EX. -/
def storeLoad : State := cycles 3 (launched [.sw 1 0 4, .lw 2 0 4] [(1, 0xFFFFFFFD)])
/-- A branch in IF/ID, its delay slot not yet fetched. -/
def branchInId : State := cycles 1 (launched [.beq 0 0 2, .add 5 8 8 0, .nop, .nop] [])
/-- A taken branch in ID/EX, in IF/ID a delay slot with no hazard. -/
def slotFree : State := cycles 2 (launched [.beq 0 0 2, .add 5 8 8 0, .nop, .nop] [])
/-- In IF/ID a delay slot that is a jump. -/
def slotTransfer : State := cycles 2 (launched [.beq 0 0 2, .j 6, .nop, .nop] [])
/-- In IF/ID a delay slot with a hazard of 1 bubble. -/
def slotOne : State := cycles 4 (launched [.add 1 2 3 0, .nop, .beq 0 0 1, .add 4 1 1 0, .nop] [])
/-- In IF/ID a delay slot that is a branch and has a hazard of 1 bubble (log entry 15). -/
def slotOneTransfer : State := cycles 4 (launched [.add 1 2 3 0, .nop, .beq 0 0 1, .beq 1 1 2, .nop] [])
/-- In IF/ID a delay slot with a hazard of 2 bubbles. -/
def slotTwo : State := cycles 3 (launched [.add 1 2 3 0, .beq 0 0 1, .add 4 1 1 0, .nop] [])
/-- The last legal load address in EX/MEM. -/
def lastAddress : State := inMem (.lw 1 0 1020) []

theorem witness_EncodeOfDecodeIsIdentity : decode 0x00430960 = .ok (.add 1 2 3 5) := by decide
theorem witness_DecodableIsInTheTable_error : ∃ e, decode 0x00000001 = .error e := ⟨_, rfl⟩
theorem witness_DecodableIsInTheTable_ok : decode 0x8C010000 = .ok (.lw 1 0 0) := by decide
theorem witness_AssembleOfDisassemble_text : decode 0x8C41FFFF = .ok (.lw 1 2 0xFFFF) := by decide
theorem witness_AssembleOfDisassemble_error : decode 0xFC000000 = .error (.unknownOpcode 0x3F) := by
  decide
theorem witness_ShamtTakesNoPart :
    exec (rInstr .add 1 2 3 5) (placed (.add 1 2 3 5) [])
      = .next (after (placed (.add 1 2 3 5) [])) := by rfl
theorem witness_ShamtTakesNoPart_cancelled :
    ∃ t, exec (rInstr .add 2 1 1 31) loadUse = .next t := ⟨_, rfl⟩
theorem witness_LabelsReachTheirAddress_forward :
    assemble 0 (.beqTo 1 2 0x20000) = some (.beq 1 2 0x7FFF) := by decide
theorem witness_LabelsReachTheirAddress_backward :
    assemble 0x20000 (.beqTo 1 2 4) = some (.beq 1 2 0x8000) := by decide
theorem witness_LabelsReachTheirAddress_jump :
    assemble 0 (.jTo 0x0FFFFFFC) = some (.j 0x3FFFFFF) := by decide
theorem witness_ZeroFlagFollowsResult :
    CycleCompletes (inEx (.sub 1 2 3 0) []) (inMem (.sub 1 2 3 0) []) := completes_after (by decide)
/-- A load of the last legal word in MEM. -/
theorem witness_ZeroFlagFollowsResult_reads :
    CycleCompletes lastAddress (after lastAddress) ∧ lastAddress.latches.exMem.memRead = true :=
  ⟨completes_after (by decide), by decide⟩
theorem witness_TargetsAreAligned : (inEx (.beq 0 0 2) []).latches.idEx.pc.toNat % 4 = 0 := by decide
theorem witness_DefaultHazardCounts_two :
    (producerInExMem true 1).exMem.regWrite = true ∧
    (producerInExMem true 1).exMem.reg ∈ sources (encode (.add 4 1 1 0)) := by decide
theorem witness_DefaultHazardCounts_load :
    (loadInIdEx 1).idEx.ctrl = Control.lwRow ∧ (loadInIdEx 1).idEx.rt = 1 ∧
    (loadInIdEx 1).idEx.rt ∈ sources 0x00211020 := by decide
theorem witness_DefaultHazardCounts_one :
    ¬((producerInMemWb 1).exMem.regWrite = true) ∧ (producerInMemWb 1).idEx.ctrl.memRead = false ∧
    (producerInMemWb 1).memWb.regWrite = true ∧
    (producerInMemWb 1).memWb.reg ∈ sources (encode (.add 4 1 1 0)) := by decide
theorem witness_DefaultHazardCounts_none :
    ¬(Latches.reset.exMem.regWrite = true) ∧ Latches.reset.idEx.ctrl.memRead = false ∧
    ¬(Latches.reset.memWb.regWrite = true) := by decide
/-- Two different instructions in ID/EX that are no loads. -/
theorem witness_NonLoadInIdExIsNotCompared :
    (inEx (.add 1 2 3 0) []).latches.exMem = (inEx (.add 4 2 3 0) []).latches.exMem ∧
    (inEx (.add 1 2 3 0) []).latches.memWb = (inEx (.add 4 2 3 0) []).latches.memWb ∧
    (inEx (.add 1 2 3 0) []).latches.idEx.ctrl.memRead = false ∧
    (inEx (.add 4 2 3 0) []).latches.idEx.ctrl.memRead = false ∧
    (inEx (.add 1 2 3 0) []).latches.idEx ≠ (inEx (.add 4 2 3 0) []).latches.idEx := by decide
theorem witness_StoredWordIsBigEndian : Memory.wf [(0, 1), (5, 2)] = true := by decide
theorem witness_FetchGivesWordOrNop_last : (4 : Word).toNat % 4 = 0 ∧ (4 : Word).toNat + 4 ≤ 8 := by
  decide
theorem witness_FetchGivesWordOrNop_end : (8 : Word).toNat % 4 = 0 ∧ 8 ≤ (8 : Word).toNat := by decide
theorem witness_FetchGivesWordOrNop_misaligned : (7 : Word).toNat % 4 ≠ 0 := by decide
theorem witness_FetchGivesWordOrNop_partial : (4 : Word).toNat < 5 ∧ 5 < (4 : Word).toNat + 4 := by
  decide
theorem witness_OnlyWriteBackWritesRegisters :
    CycleCompletes (inWb (.add 1 2 3 0) [(2, 5)]) (after (inWb (.add 1 2 3 0) [(2, 5)])) ∧
    (inWb (.add 1 2 3 0) [(2, 5)]).latches.memWb.regWrite = true :=
  ⟨completes_after (by decide), by decide⟩
/-- A write to register 0 that the hardwired policy discards. -/
def discarded : State := { inWb (.add 0 2 3 0) [(2, 5)] with params.r0Hardwired := true }
theorem witness_OnlyWriteBackWritesRegisters_discarded :
    CycleCompletes discarded (after discarded) ∧ discarded.latches.memWb.regWrite = true ∧
    discarded.latches.memWb.reg = 0 ∧ discarded.params.r0Hardwired = true :=
  ⟨completes_after (by decide), by decide⟩
theorem witness_OnlyStoresChangeDataMemory :
    CycleCompletes storeLoad (after storeLoad) ∧ Memory.wf storeLoad.dmem = true ∧
    storeLoad.latches.exMem.memWrite = true := ⟨completes_after (by decide), by decide⟩
theorem witness_NoStoreIsSeenByFetch :
    Sys2Proof.core.run 2 storeLoad = .next (cycles 2 storeLoad) := by rfl
theorem witness_CountersCountTheStages : CycleCompletes storeLoad (after storeLoad) :=
  completes_after (by decide)
theorem witness_InstructionCountIsExact_stall :
    CycleCompletes loadUse (after loadUse) ∧ 0 < loadUse.instructionCount ∧
    dataStall loadUse (sources loadUse.latches.ifId.inst) ≠ 0 := ⟨completes_after (by decide), by decide⟩
theorem witness_InstructionCountIsExact_bubble :
    CycleCompletes slotFree (after slotFree) ∧ 0 < slotFree.instructionCount ∧
    slotFree.bubblesRemaining ≠ 0 := ⟨completes_after (by decide), by decide⟩
theorem witness_StepRunsTheDecodedInstruction :
    (placed (.sub 1 2 3 0) []).Live ∧
    decode (placed (.sub 1 2 3 0) []).latches.ifId.inst = .ok (.sub 1 2 3 0) := by decide
theorem witness_FetchedWordRunsNext :
    CycleCompletes (launched [.or 1 2 3 0] []) (after (launched [.or 1 2 3 0] [])) ∧
    (launched [.or 1 2 3 0] []).bubblesRemaining = 0 ∧
    dataStall (launched [.or 1 2 3 0] []) (sources (launched [.or 1 2 3 0] []).latches.ifId.inst) = 0 ∧
    fetchWord (launched [.or 1 2 3 0] []).imem (launched [.or 1 2 3 0] []).params.imemLen
      (redirect (launched [.or 1 2 3 0] []).pc (launched [.or 1 2 3 0] []).latches.exMem)
      = .ok 0x00430825 ∧
    decode 0x00430825 = .ok (.or 1 2 3 0) ∧ (after (launched [.or 1 2 3 0] [])).Live :=
  ⟨completes_after (by decide), by decide, by decide, by rfl, by decide, by decide⟩
/-- A stall pending while a taken branch waits in EX/MEM: its redirect is lost. -/
theorem witness_FetchedWordRunsNext_stall :
    CycleCompletes (after slotTwo) (after (after slotTwo)) ∧ (after slotTwo).bubblesRemaining ≠ 0 ∧
    dataStall (after slotTwo) (sources (after slotTwo).latches.ifId.inst) = 0 ∧
    (after slotTwo).latches.exMem.branch = true ∧ (after slotTwo).latches.exMem.zeroFlag = true :=
  ⟨completes_after (by decide), by decide⟩
theorem witness_PlacedWordRunsNext :
    decode (tableWord 32 0x8C010004) = .ok (.lw 1 0 4) ∧ Memory.wf State.reset.imem = true ∧
    State.reset.pc.toNat % 4 = 0 := by decide
theorem witness_StepIsTheTableDrivenCycle :
    (placed (.beq 1 2 3) []).Live ∧
    controlUnit (placed (.beq 1 2 3) []).latches.ifId.inst = some Control.beqRow := by decide
theorem witness_DecodeLatchesFields :
    CycleCompletes (placed (.lw 1 2 0xFFFF) []) (inEx (.lw 1 2 0xFFFF) []) ∧
    controlUnit (decodedWord (placed (.lw 1 2 0xFFFF) [])) = some Control.lwRow :=
  ⟨completes_after (by decide), by decide⟩
theorem witness_DecodeLatchesFields_cancelled :
    CycleCompletes loadUse (after loadUse) ∧
    controlUnit (decodedWord loadUse) = some Control.nopRow := ⟨completes_after (by decide), by decide⟩
/-- The word in IF/ID reads, as `rs` and as `rt`, the register that WB writes, with no bubble counted. -/
def readsWrittenBack : State := { distanceThree with params.haz.memWb := 0 }
theorem witness_WriteBackIsReadInTheSameCycle :
    CycleCompletes readsWrittenBack (after readsWrittenBack) ∧
    readsWrittenBack.latches.memWb.regWrite = true ∧ readsWrittenBack.params.r0Hardwired = false ∧
    rsField (decodedWord readsWrittenBack) = readsWrittenBack.latches.memWb.reg ∧
    rtField (decodedWord readsWrittenBack) = readsWrittenBack.latches.memWb.reg :=
  ⟨completes_after (by decide), by decide⟩
theorem witness_DataStallCancelsTheWord :
    CycleCompletes loadUse (after loadUse) ∧
    dataStall loadUse (sources loadUse.latches.ifId.inst) ≠ 0 := ⟨completes_after (by decide), by decide⟩
theorem fromMemory_loadUse : InstFromMemory loadUse := fun _ => by rfl
theorem fromMemory_distanceThree : InstFromMemory distanceThree := fun _ => by rfl
theorem witness_CancelledWordReturns_two :
    InstFromMemory loadUse ∧ loadUse.params.haz = {} ∧ loadUse.bubblesRemaining ≤ 1 ∧
    CycleCompletes loadUse (after loadUse) ∧
    CycleCompletes (cycles 1 loadUse) (after (cycles 1 loadUse)) ∧
    CycleCompletes (cycles 2 loadUse) (after (cycles 2 loadUse)) ∧
    dataStall loadUse (sources loadUse.latches.ifId.inst) = 2 :=
  ⟨fromMemory_loadUse, by decide, by decide, completes_after (by decide), completes_after (by decide),
    completes_after (by decide), by decide⟩
theorem witness_CancelledWordReturns_one :
    InstFromMemory distanceThree ∧ distanceThree.params.haz = {} ∧ distanceThree.bubblesRemaining ≤ 1 ∧
    CycleCompletes distanceThree (after distanceThree) ∧
    CycleCompletes (cycles 1 distanceThree) (after (cycles 1 distanceThree)) ∧
    dataStall distanceThree (sources distanceThree.latches.ifId.inst) = 1 ∧
    ¬redirectComing distanceThree.latches.idEx :=
  ⟨fromMemory_distanceThree, by decide, by decide, completes_after (by decide),
    completes_after (by decide), by decide, by unfold redirectComing; decide⟩
theorem witness_ControlStallKeepsTheDelaySlot :
    CycleCompletes branchInId (after branchInId) ∧ branchInId.bubblesRemaining = 0 ∧
    branchInId.params.haz = {} ∧ isTransfer branchInId.latches.ifId.inst = true ∧
    dataStall branchInId (sources branchInId.latches.ifId.inst) = 0 :=
  ⟨completes_after (by decide), by decide⟩

/-- The common hypotheses of `DelaySlotDecidesRedirect`. -/
def SlotDecides (s : State) : Prop :=
  s.params.haz = {} ∧ s.bubblesRemaining = 1 ∧ redirectComing s.latches.idEx ∧
  CycleCompletes s (after s) ∧ CycleCompletes (after s) (after (after s))

theorem witness_DelaySlotDecidesRedirect_free :
    SlotDecides slotFree ∧ dataStall slotFree (sources slotFree.latches.ifId.inst) = 0 ∧
    isTransfer slotFree.latches.ifId.inst = false :=
  ⟨⟨by decide, by decide, by unfold redirectComing; decide, completes_after (by decide),
    completes_after (by decide)⟩, by decide⟩
theorem witness_DelaySlotDecidesRedirect_transfer :
    SlotDecides slotTransfer ∧ dataStall slotTransfer (sources slotTransfer.latches.ifId.inst) = 0 ∧
    isTransfer slotTransfer.latches.ifId.inst = true :=
  ⟨⟨by decide, by decide, by unfold redirectComing; decide, completes_after (by decide),
    completes_after (by decide)⟩, by decide⟩
theorem witness_DelaySlotDecidesRedirect_one :
    SlotDecides slotOne ∧ dataStall slotOne (sources slotOne.latches.ifId.inst) = 1 :=
  ⟨⟨by decide, by decide, by unfold redirectComing; decide, completes_after (by decide),
    completes_after (by decide)⟩, by decide⟩
theorem witness_DelaySlotDecidesRedirect_one_transfer :
    SlotDecides slotOneTransfer ∧
    dataStall slotOneTransfer (sources slotOneTransfer.latches.ifId.inst) = 1 ∧
    isTransfer slotOneTransfer.latches.ifId.inst = true :=
  ⟨⟨by decide, by decide, by unfold redirectComing; decide, completes_after (by decide),
    completes_after (by decide)⟩, by decide⟩
theorem witness_DelaySlotDecidesRedirect_two :
    SlotDecides slotTwo ∧ dataStall slotTwo (sources slotTwo.latches.ifId.inst) = 2 :=
  ⟨⟨by decide, by decide, by unfold redirectComing; decide, completes_after (by decide),
    completes_after (by decide)⟩, by decide⟩
/-- `add $1, $2, $3` in ID/EX, `add $4, $1, $1` in IF/ID, nothing older. -/
def distanceOne : State := cycles 2 (launched [.add 1 2 3 0, .add 4 1 1 0] [(1, 100), (2, 5), (3, 7)])
theorem witness_DistanceOneReadsTheOldValue :
    CycleCompletes distanceOne (after distanceOne) ∧ distanceOne.latches.idEx.ctrl.memRead = false ∧
    distanceOne.latches.exMem.regWrite = false ∧ distanceOne.latches.memWb.regWrite = false ∧
    rsField distanceOne.latches.ifId.inst ∈ sources distanceOne.latches.ifId.inst ∧
    rtField distanceOne.latches.ifId.inst ∈ sources distanceOne.latches.ifId.inst :=
  ⟨completes_after (by decide), by decide⟩
/-- The hypotheses of `LoadUseReadsTheLoadedWord`, with both operands the loaded register. -/
def LoadUseReads (s : State) : Prop :=
  InstFromMemory s ∧ s.params.haz = {} ∧ s.bubblesRemaining ≤ 1 ∧ s.latches.idEx.ctrl = Control.lwRow ∧
  s.latches.idEx.rt ∈ sources s.latches.ifId.inst ∧ CycleCompletes s (after s) ∧
  CycleCompletes (cycles 1 s) (after (cycles 1 s)) ∧ CycleCompletes (cycles 2 s) (after (cycles 2 s)) ∧
  CycleCompletes (cycles 3 s) (after (cycles 3 s)) ∧
  rsField s.latches.ifId.inst = s.latches.idEx.rt ∧ rtField s.latches.ifId.inst = s.latches.idEx.rt

theorem witness_LoadUseReadsTheLoadedWord : LoadUseReads loadUse :=
  ⟨fromMemory_loadUse, by decide, by decide, by decide, by decide, completes_after (by decide),
    completes_after (by decide), completes_after (by decide), completes_after (by decide), by decide,
    by decide⟩
/-- A load into a hardwired register 0 and an instruction that reads it. -/
def loadUseZero : State :=
  { cycles 2 (launched [.lw 0 0 0, .add 2 0 0 0] [] [0, 0, 0, 5]) with params.r0Hardwired := true }
theorem witness_LoadUseReadsTheLoadedWord_hardwired :
    LoadUseReads loadUseZero ∧ loadUseZero.params.r0Hardwired = true ∧
    loadUseZero.latches.idEx.rt = 0 :=
  ⟨⟨fun _ => by rfl, by decide, by decide, by decide, by decide, completes_after (by decide),
    completes_after (by decide), completes_after (by decide), completes_after (by decide), by decide,
    by decide⟩, by decide⟩
theorem witness_LoadAfterStoreReadsIt :
    Memory.wf storeLoad.dmem = true ∧ storeLoad.latches.exMem.memWrite = true ∧
    storeLoad.latches.idEx.ctrl.memRead = true ∧
    latchedAluResult storeLoad.latches.idEx = storeLoad.latches.exMem.aluResult ∧
    CycleCompletes storeLoad (after storeLoad) ∧
    CycleCompletes (cycles 1 storeLoad) (after (cycles 1 storeLoad)) :=
  ⟨by decide, by decide, by decide, by decide, completes_after (by decide), completes_after (by decide)⟩

theorem fetchDefined_lastAddress : FetchDefined lastAddress := fun _ => by decide
theorem accessAllowed_lastAddress : AccessAllowed lastAddress := fun _ => by decide
/-- With the last legal address in MEM. -/
theorem witness_ExecCompletesInDecode :
    FetchDefined lastAddress ∧ AccessAllowed lastAddress ∧
    dataStall lastAddress (sourcesOf (.add 2 3 4 0)) = 0 ∧
    lastAddress.latches.exMem.memRead = true :=
  ⟨fetchDefined_lastAddress, accessAllowed_lastAddress, by decide, by decide⟩
theorem alone_placed (i : Instr) (vs : List (RegNum × Word)) : Alone (placed i vs) where
  live := ⟨rfl, rfl⟩
  no_stall := rfl
  idEx_bubble := ⟨rfl, rfl⟩
  exMem_bubble := ⟨rfl, rfl, rfl, rfl, rfl⟩
  memWb_bubble := rfl
  pc_aligned := by show (0#32 + 4#32).toNat % 4 = 0; decide
  imem_words := by show max 0 ((0#32).toNat + 4) % 4 = 0; decide
  past_end := Nat.le_refl 4
  no_wrap := by show 4 + 16 < 2 ^ 32; decide
theorem witness_RFormatAloneWritesItsResult : Alone (placed (.slt 1 2 3 0) [(3, 1)]) := alone_placed _ _
theorem witness_LwAloneLoadsTheWord :
    Alone (placed (.lw 1 2 1020) []) ∧
    (effectiveAddress (readReg false (placed (.lw 1 2 1020) []).regs 2) 1020).toNat % 4 = 0 ∧
    (effectiveAddress (readReg false (placed (.lw 1 2 1020) []).regs 2) 1020).toNat + 4 ≤ 1024 :=
  ⟨alone_placed _ _, by decide⟩
theorem witness_SwAloneStoresTheWord :
    Alone (placed (.sw 1 2 1020) [(1, 7)]) ∧ Memory.wf (placed (.sw 1 2 1020) [(1, 7)]).dmem = true ∧
    (effectiveAddress (readReg false (placed (.sw 1 2 1020) [(1, 7)]).regs 2) 1020).toNat % 4 = 0 ∧
    (effectiveAddress (readReg false (placed (.sw 1 2 1020) [(1, 7)]).regs 2) 1020).toNat + 4
      ≤ 1024 := ⟨alone_placed _ _, by decide⟩
theorem witness_LoadAndStoreAloneFault_misaligned :
    Alone (placed (.lw 1 2 1021) []) ∧
    (effectiveAddress (readReg false (placed (.lw 1 2 1021) []).regs 2) 1021).toNat % 4 ≠ 0 :=
  ⟨alone_placed _ _, by decide⟩
theorem witness_LoadAndStoreAloneFault_bounds :
    Alone (placed (.sw 1 2 1024) []) ∧
    (effectiveAddress (readReg false (placed (.sw 1 2 1024) []).regs 2) 1024).toNat % 4 = 0 ∧
    (effectiveAddress (readReg false (placed (.sw 1 2 1024) []).regs 2) 1024).toNat + 4 > 1024 :=
  ⟨alone_placed _ _, by decide⟩
theorem witness_BeqAloneBranches_taken :
    Alone (placed (.beq 1 2 0x8000) []) ∧ (placed (.beq 1 2 0x8000) []).params.haz.ctrl = 1 ∧
    (placed (.beq 1 2 0x8000) []).latches.ifId.pc.toNat % 4 = 0 ∧
    readReg false (placed (.beq 1 2 0x8000) []).regs 1
      = readReg false (placed (.beq 1 2 0x8000) []).regs 2 := ⟨alone_placed _ _, by decide⟩
theorem witness_BeqAloneBranches_not_taken :
    Alone (placed (.beq 1 2 3) [(1, 1)]) ∧ (placed (.beq 1 2 3) [(1, 1)]).params.haz.ctrl = 1 ∧
    (placed (.beq 1 2 3) [(1, 1)]).latches.ifId.pc.toNat % 4 = 0 ∧
    readReg false (placed (.beq 1 2 3) [(1, 1)]).regs 1
      ≠ readReg false (placed (.beq 1 2 3) [(1, 1)]).regs 2 := ⟨alone_placed _ _, by decide⟩
theorem witness_JAloneJumps : Alone (placed (.j 0x20) []) ∧ (placed (.j 0x20) []).params.haz.ctrl = 1 :=
  ⟨alone_placed _ _, by decide⟩
theorem witness_NopDoesNothing : FetchDefined lastAddress ∧ AccessAllowed lastAddress :=
  ⟨fetchDefined_lastAddress, accessAllowed_lastAddress⟩

/-- The instruction in IF/ID with enough words after it for four more cycles. -/
def followed (i : Instr) : State := cycles 1 (launched [i, .nop, .nop, .nop, .nop, .nop] [])
/-- The four cycles that carry an instruction from ID to WB complete. -/
def FourComplete (s : State) : Prop :=
  CycleCompletes s (cycles 1 s) ∧ CycleCompletes (cycles 1 s) (cycles 2 s) ∧
  CycleCompletes (cycles 2 s) (cycles 3 s) ∧ CycleCompletes (cycles 3 s) (cycles 4 s)
theorem witness_RFormatResultReachesItsRegister :
    (followed (.and 1 2 3 0)).latches.ifId.inst = encode (rInstr .and 1 2 3 0) ∧
    dataStall (followed (.and 1 2 3 0)) [2, 3] = 0 ∧ FourComplete (followed (.and 1 2 3 0)) :=
  ⟨by decide, by decide, completes_after (by decide), completes_after (by decide),
    completes_after (by decide), completes_after (by decide)⟩
theorem witness_LwResultReachesItsRegister :
    (followed (.lw 1 2 1020)).latches.ifId.inst = encode (.lw 1 2 1020) ∧
    dataStall (followed (.lw 1 2 1020)) [2] = 0 ∧ FourComplete (followed (.lw 1 2 1020)) :=
  ⟨by decide, by decide, completes_after (by decide), completes_after (by decide),
    completes_after (by decide), completes_after (by decide)⟩
theorem witness_SwResultReachesMemory :
    (followed (.sw 1 2 0)).latches.ifId.inst = encode (.sw 1 2 0) ∧
    dataStall (followed (.sw 1 2 0)) [2, 1] = 0 ∧ FourComplete (followed (.sw 1 2 0)) :=
  ⟨by decide, by decide, completes_after (by decide), completes_after (by decide),
    completes_after (by decide), completes_after (by decide)⟩
theorem witness_FaultCommitsNothing_data :
    step (inMem (.sw 1 0 2) []) = .next (after (inMem (.sw 1 0 2) [])) ∧
    (inMem (.sw 1 0 2) []).fault = none ∧ (after (inMem (.sw 1 0 2) [])).fault ≠ none :=
  ⟨by rfl, by decide, by decide⟩
theorem witness_FaultCommitsNothing_decode :
    (State.reset.withFetchWord 32 1).Live ∧
    decode (State.reset.withFetchWord 32 1).latches.ifId.inst = .error (.unknownFunct 1) := by decide
/-- An undecodable word in ID while a misaligned store waits in MEM. -/
def bothFault : State := (inMem (.sw 1 0 2) []).withFetchWord 32 1
theorem witness_FaultPriority_decode :
    bothFault.Live ∧ FetchDefined bothFault ∧ (∃ e, decode bothFault.latches.ifId.inst = .error e) ∧
    bothFault.latches.exMem.memWrite = true ∧ bothFault.latches.exMem.aluResult.toNat % 4 ≠ 0 :=
  ⟨by decide, fun _ => by decide, ⟨_, rfl⟩, by decide, by decide⟩
theorem witness_FaultPriority_misaligned :
    (inMem (.lw 1 0 1026) []).Live ∧ FetchDefined (inMem (.lw 1 0 1026) []) ∧
    decode (inMem (.lw 1 0 1026) []).latches.ifId.inst = .ok .nop ∧
    (inMem (.lw 1 0 1026) []).latches.exMem.memRead = true ∧
    (inMem (.lw 1 0 1026) []).latches.exMem.aluResult.toNat % 4 ≠ 0 :=
  ⟨by decide, fun _ => by decide, by decide, by decide, by decide⟩
theorem witness_FaultPriority_bounds :
    (inMem (.lw 1 0 1024) []).Live ∧ FetchDefined (inMem (.lw 1 0 1024) []) ∧
    decode (inMem (.lw 1 0 1024) []).latches.ifId.inst = .ok .nop ∧
    (inMem (.lw 1 0 1024) []).latches.exMem.memRead = true ∧
    (inMem (.lw 1 0 1024) []).latches.exMem.aluResult.toNat % 4 = 0 ∧
    (inMem (.lw 1 0 1024) []).latches.exMem.aluResult.toNat + 4
      > (inMem (.lw 1 0 1024) []).params.dmemSize :=
  ⟨by decide, fun _ => by decide, by decide, by decide, by decide, by decide⟩
theorem witness_FaultPriority_allowed :
    lastAddress.Live ∧ FetchDefined lastAddress ∧ decode lastAddress.latches.ifId.inst = .ok .nop ∧
    AccessAllowed lastAddress :=
  ⟨by decide, fetchDefined_lastAddress, by decide, accessAllowed_lastAddress⟩
theorem witness_StoppedCoreIsFinal : State.reset.running = false := by decide
theorem witness_RunningFollowsTheHaltRule_cycle :
    CycleCompletes (inWb (.add 1 2 3 0) []) (after (inWb (.add 1 2 3 0) [])) ∧
    (after (inWb (.add 1 2 3 0) [])).running = false := ⟨completes_after (by decide), by decide⟩
theorem witness_RunningFollowsTheHaltRule_launch :
    launch { imem := .bytes [0, 0, 0, 0] } = .next (launched [.nop] []) ∧
    (launched [.nop] []).running = true := ⟨by rfl, by decide⟩

/-- The halted state after a program of one `nop`. -/
def haltedNop : State := after (launched [.nop] [])
theorem inv_haltedNop : haltedNop.Inv where
  pc_aligned := by decide
  ifId_pc_aligned := by decide
  idEx_pc_aligned := by decide
  branchAddr_aligned := by decide
  jumpAddr_aligned := by decide
  imem_words := by decide
  imem_wf := by decide
  imem_within := by decide
  dmem_wf := by decide
  dmem_within := by decide
  idEx_fromWord := ⟨0, by decide⟩
  exMem_oneAccess := by decide
  inst_counted := by decide
  bubbles_bounded := by decide
  running_iff := by decide
theorem witness_HaltedCycleChangesNothing :
    haltedNop.Inv ∧ halted haltedNop = true ∧ haltedNop.pc.toNat + 4 < 2 ^ 32 :=
  ⟨inv_haltedNop, by decide, by decide⟩
theorem witness_LaunchSetsResetValues_seed :
    ([0, 0, 0, 0] : List Byte).length % 4 = 0 ∧ ([1, 2] : List Byte).length ≤ 2 ∧
    ({ imem := .bytes [0, 0, 0, 0], dmemSize := 2, dseed := .bytes [1, 2] } : LaunchArgs).dseed
      = .bytes [1, 2] := by decide
theorem witness_LaunchSetsResetValues_no_seed :
    ([] : List Byte).length % 4 = 0 ∧ ([] : List Byte).length ≤ 0 ∧
    ({ imem := .bytes [], dmemSize := 0 } : LaunchArgs).dseed = .notGiven := by decide
/-- The load-use state satisfies the invariant, with a load in ID/EX and a word in IF/ID. -/
theorem inv_loadUse : loadUse.Inv where
  pc_aligned := by decide
  ifId_pc_aligned := by decide
  idEx_pc_aligned := by decide
  branchAddr_aligned := by decide
  jumpAddr_aligned := by decide
  imem_words := by decide
  imem_wf := by decide
  imem_within := by decide
  dmem_wf := by decide
  dmem_within := by decide
  idEx_fromWord := ⟨0x8C010000, by decide⟩
  exMem_oneAccess := by decide
  inst_counted := by decide
  bubbles_bounded := by decide
  running_iff := by decide
theorem witness_StepKeepsInvariant : loadUse.Inv ∧ step loadUse = .next (after loadUse) :=
  ⟨inv_loadUse, by rfl⟩
theorem witness_LaunchHasInvariant :
    launch { imem := .bytes [0, 0, 0, 0] } = .next (launched [.nop] []) := by rfl
theorem witness_RunsNeverGetStuck : loadUse.Inv ∧ loadUse.running = true := ⟨inv_loadUse, by decide⟩
theorem witness_InstStaysFromMemory :
    InstFromMemory loadUse ∧ loadUse.latches.ifId.inst ≠ 0 ∧ step loadUse = .next (after loadUse) :=
  ⟨fromMemory_loadUse, by decide, by rfl⟩
theorem witness_StallCountStaysAtMostOne :
    loadUse.params.haz = {} ∧ loadUse.bubblesRemaining ≤ 1 ∧ step loadUse = .next (after loadUse) :=
  ⟨by decide, by decide, by rfl⟩

end Sys2Proof.Tests
end

/-! PROOFS. The registers and the reset values of the state (spec/10_state.md R23, R44). -/

namespace Sys2Proof.Machine

/-! ### Register writes (R23) -/

/-- What a register reads after a register write: the discarded write is the only one that does not
reach its register. -/
theorem getElem_writeReg (r0 : Bool) (regs : Registers) (i j : RegNum) (v : Word) :
    (writeReg r0 regs i v)[j.toNat] =
      if j = i ∧ ¬(r0 = true ∧ i = 0#5) then v else regs[j.toNat] := by
  unfold writeReg
  by_cases hdiscard : r0 = true ∧ i = 0#5
  · simp [hdiscard]
  · by_cases hji : j = i
    · subst hji
      simp [hdiscard]
    · have hne : i.toNat ≠ j.toNat := fun h => hji (BitVec.eq_of_toNat_eq h.symm)
      simp [hdiscard, hji, Vector.getElem_set_ne _ _ hne]

/-- What a register reads after WB: only the latched destination of an enabled write changes. -/
theorem getElem_writeBack (r0 : Bool) (regs : Registers) (l : MemWb) (j : RegNum) :
    (writeBack r0 regs l)[j.toNat] =
      if l.regWrite = true ∧ j = l.reg ∧ ¬(r0 = true ∧ j = 0#5) then writeBackValue l
      else regs[j.toNat] := by
  unfold writeBack
  by_cases hw : l.regWrite = true
  · rw [if_pos hw, getElem_writeReg]
    by_cases hj : j = l.reg
    · subst hj
      simp [hw]
    · simp [hj]
  · simp [hw]

/-- A completed cycle leaves the register file as WB left it. -/
theorem cycleCompletes_regs {s t : State} (h : CycleCompletes s t) : t.regs = regsInDecode s := by
  obtain ⟨-, i, f, m, -, -, -, rfl⟩ := cycleCompletes_inv h
  rw [settleRunning_regs, afterStages_regs]

/-! ### The launch (R44) -/

/-- A launch whose buffers meet no configuration error is accepted: the converse of `launch_next`. -/
theorem launch_accepted {a : LaunchArgs} {imem seed : List Byte} (hi : a.imem = .bytes imem)
    (hd : a.dseed = .bytes seed ∨ (a.dseed = .notGiven ∧ seed = []))
    (hlen : imem.length % 4 = 0) (hseed : seed.length ≤ a.dmemSize) :
    launch a = .next (settleRunning (freshState a imem seed)) := by
  have hwith : launchWith a imem seed = .next (settleRunning (freshState a imem seed)) := by
    unfold launchWith
    rw [if_neg (by omega), if_neg (by omega)]
  rcases hd with hd | ⟨hd, rfl⟩ <;> simpa only [launch, hi, hd] using hwith

/-- The reset state is halted exactly when there is no instruction memory to fetch from (R153). -/
theorem halted_freshState (a : LaunchArgs) (imem seed : List Byte) :
    halted (freshState a imem seed) = true ↔ imem.length = 0 := by
  have hquiet : quiescent Latches.reset = true := rfl
  simp [halted, freshState, hquiet]

/-- A buffer loaded at address 0 reads as its bytes, and as zero past its end. -/
theorem readByte_memoryOfBytes_zero (bs : List Byte) (x : Nat) :
    readByte (memoryOfBytes 0 bs) x = bs.getD x 0#8 := by
  rw [readByte_memoryOfBytes, if_pos (Nat.zero_le x), Nat.sub_zero]

end Sys2Proof.Machine

namespace Sys2Proof

open Sys2Proof.Machine

/-- Settles O19: a completed cycle leaves the register file as WB does (`cycleCompletes_regs`), so both
halves are what a register reads after the one operation. -/
theorem onlyWriteBackWritesRegisters : Obligations.OnlyWriteBackWritesRegisters := by
  refine ⟨getElem_writeReg, fun s t h j => ?_⟩
  simp only [cycleCompletes_regs h, regsInDecode, getElem_writeBack, writeBackValue]

/-- Settles O53: the accepted launch is the fresh state, whose elements are the reset values by
definition; the two memories are the loaded buffers, and `running` follows the halt rule. -/
theorem launchSetsResetValues : Obligations.LaunchSetsResetValues := by
  refine ⟨fun a imem seed hi hd hlen hseed => ?_, fun _ => rfl⟩
  have hrunning : (settleRunning (freshState a imem seed)).running = true ↔ imem.length ≠ 0 := by
    rw [settleRunning_running, Bool.not_eq_true', ← Bool.not_eq_true, halted_freshState]
  exact ⟨_, launch_accepted hi hd hlen hseed, rfl, rfl, readByte_memoryOfBytes_zero imem,
    readByte_memoryOfBytes_zero seed, rfl, rfl, rfl, rfl, rfl, rfl, rfl, rfl, rfl, rfl, hrunning⟩

end Sys2Proof

/-! PROOFS. The two memories: stored words and the immutable instruction memory (spec/20_memory.md R51,
R63). -/

namespace Sys2Proof.Machine

/-! ### Stored words (R51, R53) -/

section StoredWord
variable {m : Memory} (a : Nat) (v : Word)

/-- The four bytes a stored word covers hold it most significant byte first. -/
theorem readByte_writeWord_covered (h : Memory.wf m = true) :
    readByte (writeWord m a v) a = v.extractLsb' 24 8 ∧
    readByte (writeWord m a v) (a + 1) = v.extractLsb' 16 8 ∧
    readByte (writeWord m a v) (a + 2) = v.extractLsb' 8 8 ∧
    readByte (writeWord m a v) (a + 3) = v.extractLsb' 0 8 := by
  simp [readByte_writeWord _ _ _ h]

/-- The frame of a stored word: a byte it does not cover reads as before. -/
theorem readByte_writeWord_outside {x : Nat} (h : Memory.wf m = true) (hx : x < a ∨ a + 4 ≤ x) :
    readByte (writeWord m a v) x = readByte m x := by
  rw [readByte_writeWord _ _ _ h, if_neg (by omega), if_neg (by omega), if_neg (by omega),
    if_neg (by omega)]

/-- A word read where it was stored is the word stored. -/
theorem readWord_writeWord (h : Memory.wf m = true) : readWord (writeWord m a v) a = v := by
  obtain ⟨h0, h1, h2, h3⟩ := readByte_writeWord_covered a v h
  rw [readWord, h0, h1, h2, h3, wordOfBytes_bytes]

end StoredWord

/-! ### Runs -/

/-- What every step keeps, every run keeps. -/
theorem run_preserves {P : State → Prop} (hstep : ∀ s t, step s = .next t → P s → P t) {k : Nat}
    {s t : State} (h : Sys2Proof.core.run k s = .next t) (hs : P s) : P t := by
  induction k generalizing s with
  | zero =>
    cases h
    exact hs
  | succ k ih =>
    obtain ⟨u, hu, hrun⟩ := run_succ.1 h
    exact ih hrun (hstep s u hu hs)

/-! ### Instruction memory (R45, R63) -/

/-- No step writes instruction memory or the launch's parameters, however it ends: a stopped core stays
as it is, a fault sets only the record, and a completed cycle writes data memory alone. -/
theorem step_imem_params {s t : State} (h : step s = .next t) :
    t.imem = s.imem ∧ t.params = s.params := by
  rcases step_trichotomy h with ⟨-, rfl⟩ | ⟨-, r, rfl⟩ | hc
  · exact ⟨rfl, rfl⟩
  · exact ⟨raise_imem s r, raise_params s r⟩
  · obtain ⟨-, i, f, m, -, -, -, rfl⟩ := cycleCompletes_inv hc
    simp

/-- No run writes instruction memory or the launch's parameters. -/
theorem run_imem_params {k : Nat} {s t : State} (h : Sys2Proof.core.run k s = .next t) :
    t.imem = s.imem ∧ t.params = s.params :=
  run_preserves (P := fun u => u.imem = s.imem ∧ u.params = s.params)
    (fun _ _ hstep ⟨himem, hparams⟩ =>
      have ⟨himem', hparams'⟩ := step_imem_params hstep
      ⟨himem'.trans himem, hparams'.trans hparams⟩)
    h ⟨rfl, rfl⟩

end Sys2Proof.Machine

namespace Sys2Proof

open Sys2Proof.Machine

/-- Settles O17: the covered bytes, the frame and the read-back of a stored word. -/
theorem storedWordIsBigEndian : Obligations.StoredWordIsBigEndian := by
  intro m a v h
  obtain ⟨h0, h1, h2, h3⟩ := readByte_writeWord_covered a v h
  exact ⟨h0, h1, h2, h3, fun _ hx => readByte_writeWord_outside a v h hx, readWord_writeWord a v h⟩

/-- Settles O21: a fetch reads only instruction memory and its length, and no run writes either. -/
theorem noStoreIsSeenByFetch : Obligations.NoStoreIsSeenByFetch := by
  intro k s t h
  obtain ⟨himem, hparams⟩ := run_imem_params h
  exact ⟨himem, hparams, fun a => by rw [himem, hparams]⟩

end Sys2Proof

/-! PROOFS. The control unit and the `slt` operation of the ALU (spec/40_control_alu.md R90 to R93,
R101). -/

namespace Sys2Proof.Machine

/-! ### The control unit (R90 to R93) -/

/-- The word 0 takes the first row of the decoder (R71). -/
theorem decode_zero : decode 0#32 = .ok .nop := if_pos rfl

/-- The bundle of a decodable word is the row of its instruction's class (R91). -/
theorem controlUnit_of_decode_ok {w : Word} {i : Instr} (h : decode w = .ok i) :
    controlUnit w = some (Control.ofInstr i) := by
  rw [controlUnit, h]

/-- An undecodable word has no bundle (R93). -/
theorem controlUnit_of_decode_error {w : Word} {e : Rejection} (h : decode w = .error e) :
    controlUnit w = none := by
  rw [controlUnit, h]

/-! ### `slt` (R99, R101) -/

section Slt
variable {a b : Word}

theorem alu_slt_of_lt (h : a.toNat < b.toNat) : alu (some .slt) a b = 1#32 := if_pos h

theorem alu_slt_of_le (h : b.toNat ≤ a.toNat) : alu (some .slt) a b = 0#32 := if_neg h.not_gt

end Slt

end Sys2Proof.Machine

namespace Sys2Proof

open Sys2Proof.Machine

/-- Settles O8: the word 0 decodes to `nop`, and its bundle is the row of that class. -/
theorem zeroWordGivesNopBundle : Obligations.ZeroWordGivesNopBundle :=
  controlUnit_of_decode_ok decode_zero

/-- Settles O9: by what the word decodes to, and for a decodable word by the class of its instruction. -/
theorem controlTableRows : Obligations.ControlTableRows := by
  intro w
  cases h : decode w with
  | error e => exact controlUnit_of_decode_error h
  | ok i =>
    rw [controlUnit_of_decode_ok h]
    cases i with
    | nop => rfl
    | add | sub | and | or | slt => rfl
    | lw => rfl
    | sw => rfl
    | beq => rfl
    | j => rfl

/-- Settles O11: the order of the unsigned values decides the result, for all operands and so for the
spec's two instances. -/
theorem sltComparesUnsigned : Obligations.SltComparesUnsigned := by
  refine ⟨fun a b => ?_, alu_slt_of_le (by decide), alu_slt_of_lt (by decide)⟩
  split
  · next hlt => exact alu_slt_of_lt hlt
  · next hge => exact alu_slt_of_le (Nat.le_of_not_lt hge)

end Sys2Proof

/-! PROOFS. One completed cycle, stage by stage: what it counts, what ID latches and reads, and when the
core stops running (spec/42_pipeline.md R129, R145, R149, R153). -/

namespace Sys2Proof.Machine

/-! ### The decoder and the encoder (R66 to R71) -/

/-- The R rows of `encode_of_decode_ok`: opcode, funct and the other fields are the whole word. -/
theorem encode_of_decodeR_ok {w : Word} {i : Instr} (hop : opcodeField w = opcodeR)
    (h : decodeR w = .ok i) : encode i = w := by
  simp only [decodeR] at h
  split_ifs at h with hadd hsub hand hor hslt <;> cases h
  · rw [encode, ← hadd, rFormat_fields w hop]
  · rw [encode, ← hsub, rFormat_fields w hop]
  · rw [encode, ← hand, rFormat_fields w hop]
  · rw [encode, ← hor, rFormat_fields w hop]
  · rw [encode, ← hslt, rFormat_fields w hop]

/-- No bit of a decodable word is lost: the row it decodes by rebuilds it from its fields. -/
theorem encode_of_decode_ok {w : Word} {i : Instr} (h : decode w = .ok i) : encode i = w := by
  simp only [decode] at h
  split_ifs at h with hnop hr hlw hsw hbeq hj
  · cases h
    exact hnop.symm
  · exact encode_of_decodeR_ok hr h
  · cases h
    rw [encode, ← hlw, iFormat_fields]
  · cases h
    rw [encode, ← hsw, iFormat_fields]
  · cases h
    rw [encode, ← hbeq, iFormat_fields]
  · cases h
    rw [encode, ← hj, jFormat_fields]

/-- The source set of a decodable word is that of its instruction (R112). -/
theorem sources_of_decode_ok {w : Word} {i : Instr} (h : decode w = .ok i) :
    sources w = sourcesOf i := by
  rw [sources, h]

/-! ### ID (R129, R141, R145) -/

section Decoded
variable {s t : State}

/-- Without a data stall ID decodes the word in IF/ID. -/
theorem decodedWord_proceed (h : dataStall s (sources s.latches.ifId.inst) = 0#8) :
    decodedWord s = s.latches.ifId.inst := if_pos h

/-- Under a data stall ID decodes the word 0 instead (R141). -/
theorem decodedWord_cancel (h : dataStall s (sources s.latches.ifId.inst) ≠ 0#8) :
    decodedWord s = 0#32 := if_neg h

/-- In a completed cycle ID decodes a decodable word: a cycle with any other word in IF/ID raises
`DecodeError`, and a cancelled word is a `nop`. -/
theorem cycleCompletes_controlUnit (h : CycleCompletes s t) :
    ∃ c, controlUnit (decodedWord s) = some c := by
  obtain ⟨-, i, -, -, hi, -⟩ := cycleCompletes_inv h
  by_cases hstall : dataStall s (sources s.latches.ifId.inst) = 0#8
  · exact ⟨_, decodedWord_proceed hstall ▸ controlUnit_of_decode_ok hi⟩
  · exact ⟨_, decodedWord_cancel hstall ▸ controlUnit_of_decode_ok decode_zero⟩

/-- The ID/EX latch after a completed cycle is that of the word ID decodes, with the address latched for
it, or its own address if it was cancelled (R141, R145). -/
theorem cycleCompletes_idEx {c : Control} (h : CycleCompletes s t)
    (hc : controlUnit (decodedWord s) = some c) :
    t.latches.idEx = latchIdEx s.params.r0Hardwired (regsInDecode s) c (decodedWord s)
      (if dataStall s (sources s.latches.ifId.inst) = 0#8 then s.latches.ifId.pc
       else s.latches.ifId.pc - 4#32) := by
  obtain ⟨-, i, f, m, hi, -, -, rfl⟩ := cycleCompletes_inv h
  rw [settleRunning_latches, afterStages_idEx, encode_of_decode_ok hi, ← sources_of_decode_ok hi]
  by_cases hstall : dataStall s (sources s.latches.ifId.inst) = 0#8
  · rw [decodedWord_proceed hstall, controlUnit_of_decode_ok hi] at hc
    cases hc
    rw [decodedWord_proceed hstall, if_pos hstall, decodeStage_proceed (h := hstall)]
  · rw [decodedWord_cancel hstall, controlUnit_of_decode_ok decode_zero] at hc
    cases hc
    rw [decodedWord_cancel hstall, if_neg hstall, decodeStage_cancel (h := hstall)]
    rfl

/-- ID reads the value WB writes, unless the write is the discarded one to a hardwired register 0. -/
theorem operandInDecode_writtenBack (hwrite : s.latches.memWb.regWrite = true)
    (hkept : ¬(s.params.r0Hardwired = true ∧ s.latches.memWb.reg = 0#5)) :
    operandInDecode s s.latches.memWb.reg = writeBackValue s.latches.memWb := by
  rw [operandInDecode, readReg, if_neg hkept, regsInDecode, getElem_writeBack,
    if_pos ⟨hwrite, rfl, hkept⟩]

end Decoded

/-! ### The operation counters (R39, R103, R149) -/

/-- The counters after an ALU operation, each by itself. -/
theorem countAlu_eq (ops : OpCounters) (code : Option AluCode) :
    countAlu ops code =
      { add := ops.add + (if code = some .add then 1 else 0)
        sub := ops.sub + (if code = some .sub then 1 else 0)
        and := ops.and + (if code = some .and then 1 else 0)
        or := ops.or + (if code = some .or then 1 else 0)
        slt := ops.slt + (if code = some .slt then 1 else 0)
        memRead := ops.memRead
        memWrite := ops.memWrite } := by
  cases code with
  | none => rfl
  | some code => cases code <;> rfl

/-- A completed cycle counts the operation in EX and then the access in MEM. -/
theorem cycleCompletes_ops {s t : State} (h : CycleCompletes s t) :
    t.ops = { countAlu s.ops (latchedAluCode s.latches.idEx) with
      memRead := s.ops.memRead + (if s.latches.exMem.memRead = true then 1 else 0)
      memWrite := s.ops.memWrite + (if s.latches.exMem.memWrite = true then 1 else 0) } := by
  obtain ⟨-, i, f, m, -, -, hm, rfl⟩ := cycleCompletes_inv h
  obtain ⟨-, -, -, hops⟩ := memStage_ok hm
  rw [settleRunning_ops, afterStages_ops, hops, executeCount, countAlu_eq]
  simp only [add_ite, add_zero]

/-! ### The halt rule (R153, R154) -/

/-- The pipeline is quiescent when IF/ID holds no word and no later latch asks for an effect (R154). -/
theorem quiescent_iff (l : Latches) :
    quiescent l = true ↔
      l.ifId.inst = 0#32 ∧
      (l.idEx.ctrl.regWrite = false ∧ l.idEx.ctrl.memRead = false ∧ l.idEx.ctrl.memWrite = false ∧
        l.idEx.ctrl.branch = false ∧ l.idEx.ctrl.jump = false) ∧
      (l.exMem.regWrite = false ∧ l.exMem.memRead = false ∧ l.exMem.memWrite = false ∧
        l.exMem.branch = false ∧ l.exMem.jump = false) ∧
      l.memWb.regWrite = false := by
  simp [quiescent, and_assoc]

/-- The halt condition (R153). -/
theorem halted_iff (s : State) :
    halted s = true ↔
      s.params.imemLen ≤ s.pc.toNat ∧ s.bubblesRemaining = 0#8 ∧ quiescent s.latches = true := by
  simp [halted, and_assoc]

/-- A state whose `running` the halt rule has settled runs exactly when it is not halted. -/
theorem running_false_of_settled {s u : State} (h : s = settleRunning u) :
    s.running = false ↔ halted s = true := by
  rw [h, settleRunning_running, halted_settleRunning, Bool.not_eq_false']

/-- Both a completed cycle and a launch end with the halt rule (R151, R230). -/
theorem settled_of_cycle_or_launch {s t : State}
    (h : CycleCompletes s t ∨ ∃ a, launch a = .next t) : ∃ u, t = settleRunning u := by
  rcases h with hcycle | ⟨a, hlaunch⟩
  · obtain ⟨-, i, f, m, -, -, -, ht⟩ := cycleCompletes_inv hcycle
    exact ⟨_, ht⟩
  · obtain ⟨imem, seed, -, -, -, -, ht⟩ := launch_next hlaunch
    exact ⟨_, ht⟩

end Sys2Proof.Machine

namespace Sys2Proof

open Sys2Proof.Machine

/-- Settles O22: EX counts its operation (`countAlu_eq`), MEM its access. -/
theorem countersCountTheStages : Obligations.CountersCountTheStages := by
  intro s t h
  rw [cycleCompletes_ops h, countAlu_eq]

/-- Settles O28: the latch of the decoded word (`cycleCompletes_idEx`), field by field. -/
theorem decodeLatchesFields : Obligations.DecodeLatchesFields :=
  fun _ _ _ h hc => cycleCompletes_idEx h hc

/-- Settles O29: ID reads both operands from the register file that WB leaves. -/
theorem writeBackIsReadInTheSameCycle : Obligations.WriteBackIsReadInTheSameCycle := by
  intro s t h hwrite hkept
  obtain ⟨c, hc⟩ := cycleCompletes_controlUnit h
  have hread := operandInDecode_writtenBack hwrite hkept
  rw [cycleCompletes_idEx h hc]
  exact ⟨fun hrs => (congrArg (operandInDecode s) hrs).trans hread,
    fun hrt => (congrArg (operandInDecode s) hrt).trans hread⟩

/-- Settles O51: a completed cycle and a launch both end in a settled state, which has stopped exactly
when the halt condition holds. -/
theorem runningFollowsTheHaltRule : Obligations.RunningFollowsTheHaltRule := by
  refine ⟨fun s t h => ?_, quiescent_iff⟩
  obtain ⟨u, hu⟩ := settled_of_cycle_or_launch h
  exact (running_false_of_settled hu).trans (halted_iff t)

end Sys2Proof

/-! PROOFS. Faults: which one a cycle raises, in the order of the stages (spec/60_exceptions.md R201 to
R206). -/

namespace Sys2Proof.Machine

/-! ### The data check (R52, R202, R203) -/

section DataCheck
variable {size : Nat} {a : Word}

theorem dataCheck_misaligned (h : a.toNat % 4 ≠ 0) :
    dataCheck size a = some (.misalignedData a) := if_pos h

theorem dataCheck_outOfBounds (halign : a.toNat % 4 = 0) (hbound : a.toNat + 4 > size) :
    dataCheck size a = some (.dataOutOfBounds a) := by
  rw [dataCheck, if_neg (not_not_intro halign), if_pos hbound]

/-- An access whose check gives a record makes MEM raise it: the converse of `memStage_error`. -/
theorem memStage_raises {dmem : Memory} {ops : OpCounters} {l : ExMem} {r : FaultRecord}
    (haccess : l.memRead = true ∨ l.memWrite = true) (hcheck : dataCheck size l.aluResult = some r) :
    memStage size dmem ops l = .error r := by
  simp only [memStage, if_pos haccess, hcheck]

end DataCheck

/-! ### The faults of one cycle (R201, R206) -/

section Fault
variable {s : State} {i : Instr}

/-- An undecodable word in ID ends the cycle before any other stage can raise (R137, R206). -/
theorem step_of_decode_error {e : Rejection} (hlive : s.Live)
    (h : decode s.latches.ifId.inst = .error e) :
    step s = .next (s.raise (.decodeError (s.latches.ifId.pc - 4#32) s.latches.ifId.inst)) := by
  rw [step, if_pos hlive, h]

/-- A live core runs the cycle of the decodable word in ID. -/
theorem step_of_decode_ok (hlive : s.Live) (h : decode s.latches.ifId.inst = .ok i) :
    step s = exec i s := by
  rw [step, if_pos hlive, h]

/-- Whatever word ID decodes, a failed data check is the fault of the cycle. -/
theorem exec_raises {r : FaultRecord} (hfetch : FetchDefined s)
    (haccess : s.latches.exMem.memRead = true ∨ s.latches.exMem.memWrite = true)
    (hcheck : dataCheck s.params.dmemSize s.latches.exMem.aluResult = some r) :
    exec i s = .next (s.raise r) := by
  obtain ⟨f, hf⟩ := fetchStage_defined hfetch
  rw [exec_eq, decodeCycle, hf, memStage_raises haccess hcheck]

/-- A cycle with no access waiting, or an allowed one, completes and leaves the fault record alone. -/
theorem exec_allowed_fault (hfetch : FetchDefined s) (hallowed : AccessAllowed s) :
    ∃ t, exec i s = .next t ∧ t.fault = s.fault := by
  obtain ⟨f, m, -, -, hcycle⟩ := decodeCycle_completes hfetch hallowed (Control.ofInstr i)
    (sourcesOf i) (isTransfer (encode i)) (encode i)
  exact ⟨_, (exec_eq i s).trans hcycle, rfl⟩

end Fault

end Sys2Proof.Machine

namespace Sys2Proof

open Sys2Proof.Machine

/-- Settles O49: ID raises before MEM can; for a decodable word the data check of MEM decides, its
alignment test before its bounds test, and where it passes the cycle completes. -/
theorem faultPriority : Obligations.FaultPriority := by
  intro s hlive hfetch a access
  refine ⟨fun ⟨_, he⟩ => step_of_decode_error hlive he, fun ⟨i, hi⟩ => ?_⟩
  rw [step_of_decode_ok hlive hi]
  refine ⟨fun haccess hmis => ?_, fun haccess halign hbound => ?_, fun hallowed => ?_⟩
  · exact exec_raises hfetch haccess (dataCheck_misaligned hmis)
  · exact exec_raises hfetch haccess (dataCheck_outOfBounds halign hbound)
  · obtain ⟨t, ht, hfault⟩ := exec_allowed_fault hfetch hallowed
    exact ⟨t, ht, hfault.trans hlive.2⟩

end Sys2Proof

/-! PROOFS. The configuration errors of a launch (spec/70_reset_and_hazards.md R233). -/

namespace Sys2Proof.Machine

/-! ### Refused launches (R233) -/

section Refused
variable {a : LaunchArgs} {imem seed : List Byte}

/-- Supplied buffers are refused exactly for their lengths. -/
theorem launchWith_refused_iff :
    (∃ r, launchWith a imem seed = .refused r) ↔
      imem.length % 4 ≠ 0 ∨ seed.length > a.dmemSize := by
  unfold launchWith
  split
  · next hlen => simp [hlen]
  · next hlen =>
    split
    · next hseed => simp [hseed]
    · next hseed => simp [hlen, hseed]

theorem launchWith_ne_fault (r : Fault) : launchWith a imem seed ≠ .fault r := by
  unfold launchWith
  split
  · simp
  · split <;> simp

theorem launch_of_bytes (hi : a.imem = .bytes imem) (hd : a.dseed = .bytes seed) :
    launch a = launchWith a imem seed := by
  simp only [launch, hi, hd]

/-- A launch without a seed is a launch with the empty one (R234). -/
theorem launch_of_no_seed (hi : a.imem = .bytes imem) (hd : a.dseed = .notGiven) :
    launch a = launchWith a imem [] := by
  simp only [launch, hi, hd]

theorem launch_of_unreadable_seed (hi : a.imem = .bytes imem) (hd : a.dseed = .unreadable) :
    launch a = .refused (.missingInput .dseed) := by
  simp only [launch, hi, hd]

theorem launch_of_missing_imem (hi : ∀ imem, a.imem ≠ .bytes imem) :
    launch a = .refused (.missingInput .imem) := by
  cases himem : a.imem with
  | bytes imem => exact absurd himem (hi imem)
  | notGiven => simp only [launch, himem]
  | unreadable => simp only [launch, himem]

/-- Every launch lacks an input buffer and is refused for it, or has its two buffers, an absent seed
counting as the empty one, and is decided by their lengths. -/
theorem launch_cases (a : LaunchArgs) :
    (((∀ imem, a.imem ≠ .bytes imem) ∨ a.dseed = .unreadable) ∧
      ∃ b, launch a = .refused (.missingInput b)) ∨
    ∃ imem seed, a.imem = .bytes imem ∧
      (a.dseed = .bytes seed ∨ (a.dseed = .notGiven ∧ seed = [])) ∧
      launch a = launchWith a imem seed := by
  by_cases hi : ∃ imem, a.imem = .bytes imem
  · obtain ⟨imem, hi⟩ := hi
    cases hd : a.dseed with
    | bytes seed => exact .inr ⟨imem, seed, hi, .inl rfl, launch_of_bytes hi hd⟩
    | notGiven => exact .inr ⟨imem, [], hi, .inr ⟨rfl, rfl⟩, launch_of_no_seed hi hd⟩
    | unreadable => exact .inl ⟨.inr rfl, _, launch_of_unreadable_seed hi hd⟩
  · have hi := not_exists.1 hi
    exact .inl ⟨.inl hi, _, launch_of_missing_imem hi⟩

theorem launch_ne_fault (a : LaunchArgs) (r : Fault) : launch a ≠ .fault r := by
  obtain ⟨-, b, h⟩ | ⟨imem, seed, -, -, h⟩ := launch_cases a
  · simp [h]
  · exact h ▸ launchWith_ne_fault r

/-- The configuration errors of R233: a missing buffer, or a supplied one of a wrong length. -/
theorem launch_refused_iff (a : LaunchArgs) :
    (∃ r, launch a = .refused r) ↔
      (∀ imem, a.imem ≠ .bytes imem) ∨ a.dseed = .unreadable ∨
      (∃ imem, a.imem = .bytes imem ∧ imem.length % 4 ≠ 0) ∨
      (∃ seed, a.dseed = .bytes seed ∧ seed.length > a.dmemSize) := by
  obtain ⟨hmissing, b, h⟩ | ⟨imem, seed, hi, hd, h⟩ := launch_cases a
  · exact iff_of_true ⟨_, h⟩ (or_assoc.1 (.inl hmissing))
  · rw [h, launchWith_refused_iff]
    obtain hd | ⟨hd, rfl⟩ := hd <;> simp [hi, hd]

end Refused

end Sys2Proof.Machine

namespace Sys2Proof

open Sys2Proof.Machine

/-- Settles O54: a launch lacks a buffer or is decided by the lengths of its buffers (`launch_cases`), and
never faults; no address has its four bytes inside a data memory of size 0. -/
theorem launchRefusesConfigErrors : Obligations.LaunchRefusesConfigErrors := by
  refine ⟨launch_refused_iff, launch_ne_fault, fun a hcheck => ?_⟩
  obtain ⟨-, hbound⟩ := dataCheck_none.1 hcheck
  omega

end Sys2Proof

/-! PROOFS. The decoder undoes the encoder, and decides membership in the opcode table
(spec/30_encoding.md R65 to R77). -/

namespace Sys2Proof

open Sys2Proof.Machine

/-! ### The rows of the decoder (R71) -/

/-- The funct of the R row of a mnemonic (R70). -/
def rFunct : AluMnemonic → BitVec 6
  | .add => functAdd
  | .sub => functSub
  | .and => functAnd
  | .or => functOr
  | .slt => functSlt

section DecodeRows
variable {w : Word}

theorem ne_zero_of_opcodeField (h : opcodeField w ≠ 0#6) : w ≠ 0#32 := by
  rintro rfl
  exact h rfl

theorem ne_zero_of_functField (h : functField w ≠ 0#6) : w ≠ 0#32 := by
  rintro rfl
  exact h rfl

/-- The word of an R-format instruction is its fields and the funct of its row (R70). -/
theorem encode_rInstr (op : AluMnemonic) (rd rs rt : RegNum) (shamt : BitVec 5) :
    encode (rInstr op rd rs rt shamt) = rFormat rs rt rd shamt (rFunct op) := by
  cases op <;> rfl

/-- A word with opcode 0 and the funct of an R row decodes by that row. -/
theorem decode_of_rFunct (op : AluMnemonic) (hop : opcodeField w = opcodeR)
    (hf : functField w = rFunct op) :
    decode w = .ok (rInstr op (rdField w) (rsField w) (rtField w) (shamtField w)) := by
  have hw : w ≠ 0#32 := ne_zero_of_functField (by rw [hf]; cases op <;> decide)
  have hrow : decode w = decodeR w := by
    rw [decode, if_neg hw]
    exact if_pos hop
  rw [hrow, decodeR, hf]
  cases op <;> rfl

theorem decode_of_opcodeLw (hop : opcodeField w = opcodeLw) :
    decode w = .ok (.lw (rtField w) (rsField w) (imm16Field w)) := by
  rw [decode, if_neg (ne_zero_of_opcodeField (by rw [hop]; decide)), hop]
  rfl

theorem decode_of_opcodeSw (hop : opcodeField w = opcodeSw) :
    decode w = .ok (.sw (rtField w) (rsField w) (imm16Field w)) := by
  rw [decode, if_neg (ne_zero_of_opcodeField (by rw [hop]; decide)), hop]
  rfl

theorem decode_of_opcodeBeq (hop : opcodeField w = opcodeBeq) :
    decode w = .ok (.beq (rsField w) (rtField w) (imm16Field w)) := by
  rw [decode, if_neg (ne_zero_of_opcodeField (by rw [hop]; decide)), hop]
  rfl

theorem decode_of_opcodeJ (hop : opcodeField w = opcodeJ) :
    decode w = .ok (.j (addr26Field w)) := by
  rw [decode, if_neg (ne_zero_of_opcodeField (by rw [hop]; decide)), hop]
  rfl

end DecodeRows

theorem decode_encode_rInstr (op : AluMnemonic) (rd rs rt : RegNum) (shamt : BitVec 5) :
    decode (encode (rInstr op rd rs rt shamt)) = .ok (rInstr op rd rs rt shamt) := by
  simp [encode_rInstr, decode_of_rFunct op]

/-- Every instruction decodes from its own word: the row of its format reads back every field. -/
theorem decode_encode (i : Instr) : decode (encode i) = .ok i := by
  cases i with
  | add => exact decode_encode_rInstr .add ..
  | sub => exact decode_encode_rInstr .sub ..
  | and => exact decode_encode_rInstr .and ..
  | or => exact decode_encode_rInstr .or ..
  | slt => exact decode_encode_rInstr .slt ..
  | lw => simp [encode, decode_of_opcodeLw]
  | sw => simp [encode, decode_of_opcodeSw]
  | beq => simp [encode, decode_of_opcodeBeq]
  | j => simp [encode, decode_of_opcodeJ]
  | nop => exact decode_zero

/-- The decoder on bytes reads a word laid out big-endian and leaves the rest (R53, R65). -/
theorem decodeBytes_bytesOfWord (w : Word) (rest : List Byte) :
    decodeBytes (bytesOfWord w ++ rest) = (decode w).map (·, rest) := by
  simp [bytesOfWord, decodeBytes]

/-! ### The opcode table (R70) -/

/-- The fixed bits of an R row are its opcode and its funct. -/
theorem fields_of_rMask {w : Word} {f : BitVec 6}
    (h : w &&& 0xFC00003F#32 = rFormat 0 0 0 0 f) :
    opcodeField w = opcodeR ∧ functField w = f := by
  rw [Laws.MatchesRow.and_rMask] at h
  constructor
  · have := congrArg opcodeField h
    rw [opcodeField_rFormat] at this
    rw [← this]
    unfold opcodeField; grind
  · have := congrArg functField h
    rw [functField_rFormat] at this
    rw [← this]
    unfold functField; grind

theorem decode_of_rMask {w : Word} (op : AluMnemonic)
    (h : w &&& 0xFC00003F#32 = rFormat 0 0 0 0 (rFunct op)) :
    decode w = .ok (rInstr op (rdField w) (rsField w) (rtField w) (shamtField w)) := by
  obtain ⟨hop, hf⟩ := fields_of_rMask h
  exact decode_of_rFunct op hop hf

/-- The fixed bits of an I or J row are its opcode. -/
theorem opcodeField_of_iMask {w : Word} {op : BitVec 6}
    (h : w &&& 0xFC000000#32 = jFormat op 0) : opcodeField w = op := by
  rw [Laws.MatchesRow.and_iMask] at h
  have := congrArg opcodeField h
  rw [opcodeField_jFormat] at this
  rw [← this]
  unfold opcodeField; grind

/-- A word with the fixed bits of a row decodes. -/
theorem decode_ok_of_matches {w : Word} (i : Instr) (h : w &&& (matchMask i).2 = (matchMask i).1) :
    ∃ k, decode w = .ok k := by
  cases i with
  | add => exact ⟨_, decode_of_rMask .add h⟩
  | sub => exact ⟨_, decode_of_rMask .sub h⟩
  | and => exact ⟨_, decode_of_rMask .and h⟩
  | or => exact ⟨_, decode_of_rMask .or h⟩
  | slt => exact ⟨_, decode_of_rMask .slt h⟩
  | lw => exact ⟨_, decode_of_opcodeLw (opcodeField_of_iMask h)⟩
  | sw => exact ⟨_, decode_of_opcodeSw (opcodeField_of_iMask h)⟩
  | beq => exact ⟨_, decode_of_opcodeBeq (opcodeField_of_iMask h)⟩
  | j => exact ⟨_, decode_of_opcodeJ (opcodeField_of_iMask h)⟩
  | nop =>
    have hw : w = 0#32 := (BitVec.and_allOnes (x := w)).symm.trans h
    exact ⟨.nop, hw ▸ decode_zero⟩

/-- Every encoded instruction has the fixed bits of its row. -/
theorem encode_matches (i : Instr) : encode i &&& (matchMask i).2 = (matchMask i).1 := by
  cases i with
  | add => exact Laws.MatchesRow.add ..
  | sub => exact Laws.MatchesRow.sub ..
  | and => exact Laws.MatchesRow.and ..
  | or => exact Laws.MatchesRow.or ..
  | slt => exact Laws.MatchesRow.slt ..
  | lw => exact Laws.MatchesRow.lw ..
  | sw => exact Laws.MatchesRow.sw ..
  | beq => exact Laws.MatchesRow.beq ..
  | j => exact Laws.MatchesRow.j ..
  | nop => exact Laws.MatchesRow.nop

theorem matches_of_decode_ok {w : Word} {i : Instr} (h : decode w = .ok i) :
    w &&& (matchMask i).2 = (matchMask i).1 := by
  simpa only [encode_of_decode_ok h] using encode_matches i

/-- Settles O1: the decoder reads back every field the encoder wrote (`decode_encode`), and a word lies
in its four bytes. -/
theorem decodeOfEncodeIsIdentity : Obligations.DecodeOfEncodeIsIdentity := by
  refine ⟨decode_encode, fun i rest => ?_⟩
  rw [decodeBytes_bytesOfWord, decode_encode]
  rfl

/-- Settles O2: a decodable word is rebuilt from the fields its row reads (`encode_of_decode_ok`). -/
theorem encodeOfDecodeIsIdentity : Obligations.EncodeOfDecodeIsIdentity :=
  fun _ _ => encode_of_decode_ok

/-- Settles O3: the decoder accepts a word with the fixed bits of any row, and a word it accepts is the
encoding of its instruction, which has the fixed bits of that instruction's row. -/
theorem decodableIsInTheTable : Obligations.DecodableIsInTheTable := by
  refine ⟨fun w => ⟨fun ⟨e, he⟩ i hmatch => ?_, fun hnone => ?_⟩, fun w i => matches_of_decode_ok⟩
  · obtain ⟨k, hk⟩ := decode_ok_of_matches i hmatch
    rw [he] at hk
    cases hk
  · cases h : decode w with
    | error e => exact ⟨e, rfl⟩
    | ok i => exact absurd (matches_of_decode_ok h) (hnone i)

/-- Settles O4, by evaluating the decoder on the fifteen words. -/
theorem listedWordsDecode : Obligations.ListedWordsDecode := by
  unfold Obligations.ListedWordsDecode
  decide

end Sys2Proof

/-! PROOFS. One completed cycle as a relation between the states around it: what each stage left
(spec/42_pipeline.md R125 to R151). `Cycle` speaks of the cycle of any instruction, so that it serves
`exec` as well as `step`. -/

namespace Sys2Proof.Machine

/-! ### The cycle of an instruction -/

/-- The cycle from `s` in which ID decodes `i` completed and left `t`; `f` is what IF left. -/
structure Cycle (i : Instr) (f : FetchOut) (s t : State) : Prop where
  fetch : fetchStage s = .ok f
  allowed : AccessAllowed s
  params : t.params = s.params
  imem : t.imem = s.imem
  fault : t.fault = s.fault
  cycleCount : t.cycleCount = s.cycleCount + 1
  regs : t.regs = regsInDecode s
  dmem : t.dmem = if s.latches.exMem.memWrite = true then
    writeWord s.dmem s.latches.exMem.aluResult.toNat s.latches.exMem.storeVal else s.dmem
  ops : t.ops = { countAlu s.ops (latchedAluCode s.latches.idEx) with
    memRead := s.ops.memRead + (if s.latches.exMem.memRead = true then 1 else 0)
    memWrite := s.ops.memWrite + (if s.latches.exMem.memWrite = true then 1 else 0) }
  decoded : (⟨t.latches.idEx, t.latches.ifId, t.pc, t.bubblesRemaining, t.instructionCount⟩ :
      DecodeOut) =
    decodeStage (Control.ofInstr i) (sourcesOf i) (isTransfer (encode i)) (encode i) s
      (regsInDecode s) f
  exMem : t.latches.exMem = executeStage s.latches.idEx
  memWb : t.latches.memWb =
    { regWrite := s.latches.exMem.regWrite
      memToReg := s.latches.exMem.memToReg
      readData := if s.latches.exMem.memRead = true then
        readWord s.dmem s.latches.exMem.aluResult.toNat else 0#32
      aluResult := s.latches.exMem.aluResult
      reg := s.latches.exMem.reg }
  running : t.running = !halted t

/-- The stages' results, put together, are a completed cycle. -/
theorem cycle_afterStages {i : Instr} {f : FetchOut} {m : MemOut} {s : State}
    (hf : fetchStage s = .ok f)
    (hm : memStage s.params.dmemSize s.dmem (executeCount s.ops s.latches.idEx) s.latches.exMem
      = .ok m) :
    Cycle i f s (settleRunning (afterStages s (regsInDecode s)
      (decodeStage (Control.ofInstr i) (sourcesOf i) (isTransfer (encode i)) (encode i) s
        (regsInDecode s) f) m)) := by
  obtain ⟨hcheck, hdmem, hmemWb, hops⟩ := memStage_ok hm
  refine ⟨hf, fun h => dataCheck_none.1 (hcheck h), rfl, rfl, rfl, rfl, rfl, hdmem, ?_, rfl, rfl,
    hmemWb, rfl⟩
  rw [settleRunning_ops, afterStages_ops, hops, executeCount, countAlu_eq]
  simp only [add_ite, add_zero]

/-- The cycle of an instruction completes when its fetch is defined and the older access allowed. -/
theorem exec_cycle {s : State} (i : Instr) (hfetch : FetchDefined s) (hallowed : AccessAllowed s) :
    ∃ f t, exec i s = .next t ∧ Cycle i f s t := by
  obtain ⟨f, m, hf, hm, hcycle⟩ := decodeCycle_completes hfetch hallowed (Control.ofInstr i)
    (sourcesOf i) (isTransfer (encode i)) (encode i)
  exact ⟨f, _, (exec_eq i s).trans hcycle, cycle_afterStages hf hm⟩

/-- A completed cycle of the core is the cycle of the instruction in IF/ID. -/
theorem cycleCompletes_cycle {s t : State} (h : CycleCompletes s t) :
    ∃ i f, decode s.latches.ifId.inst = .ok i ∧ Cycle i f s t := by
  obtain ⟨-, i, f, m, hi, hf, hm, rfl⟩ := cycleCompletes_inv h
  exact ⟨i, f, hi, cycle_afterStages hf hm⟩

/-! ### What ID leaves (R141 to R145) -/

section Decoded
variable {i : Instr} {f : FetchOut} {s t : State}

/-- A word that no data stall cancels enters ID/EX, and what IF left stands (R142, R145). -/
theorem cycle_proceed (h : Cycle i f s t) (hstall : dataStall s (sourcesOf i) = 0#8) :
    t.latches.idEx = latchIdEx s.params.r0Hardwired (regsInDecode s) (Control.ofInstr i) (encode i)
      s.latches.ifId.pc ∧
    t.latches.ifId = f.ifId ∧ t.pc = f.pc ∧
    t.bubblesRemaining = maxCount f.bubbles (controlHazard s.params.haz (isTransfer (encode i))) ∧
    t.instructionCount = f.instructionCount := by
  have hd := h.decoded
  rw [decodeStage_proceed (h := hstall)] at hd
  have hzero : maxCount f.bubbles 0#8 = f.bubbles := if_neg (by simp)
  rw [hzero] at hd
  injection hd with h1 h2 h3 h4 h5
  exact ⟨h1, h2, h3, h4, h5⟩

/-- A cancelled word leaves a bubble, and `pc` and IF/ID at its own address (R141). -/
theorem cycle_cancel (h : Cycle i f s t) (hstall : dataStall s (sourcesOf i) ≠ 0#8) :
    t.latches.idEx = latchIdEx s.params.r0Hardwired (regsInDecode s) Control.nopRow 0#32
      (s.latches.ifId.pc - 4#32) ∧
    t.latches.ifId = { inst := 0#32, pc := s.latches.ifId.pc - 4#32 } ∧
    t.pc = s.latches.ifId.pc - 4#32 ∧
    t.bubblesRemaining = maxCount (maxCount f.bubbles (dataStall s (sourcesOf i)))
      (controlHazard s.params.haz (isTransfer (encode i))) - 1#8 ∧
    t.instructionCount = f.instructionCount - 1 - f.fetched := by
  have hd := h.decoded
  rw [decodeStage_cancel (h := hstall)] at hd
  injection hd with h1 h2 h3 h4 h5
  exact ⟨h1, h2, h3, h4, h5⟩

end Decoded

/-! ### A completed cycle of the core, by the word in IF/ID -/

section Completed
variable {s t : State}

theorem cycleCompletes_params (h : CycleCompletes s t) : t.params = s.params := by
  obtain ⟨_, _, _, hc⟩ := cycleCompletes_cycle h
  exact hc.params

theorem cycleCompletes_imem (h : CycleCompletes s t) : t.imem = s.imem := by
  obtain ⟨_, _, _, hc⟩ := cycleCompletes_cycle h
  exact hc.imem

theorem cycleCompletes_fault (h : CycleCompletes s t) : t.fault = s.fault := by
  obtain ⟨_, _, _, hc⟩ := cycleCompletes_cycle h
  exact hc.fault

theorem cycleCompletes_dmem (h : CycleCompletes s t) :
    t.dmem = if s.latches.exMem.memWrite = true then
      writeWord s.dmem s.latches.exMem.aluResult.toNat s.latches.exMem.storeVal else s.dmem := by
  obtain ⟨_, _, _, hc⟩ := cycleCompletes_cycle h
  exact hc.dmem

theorem cycleCompletes_exMem (h : CycleCompletes s t) :
    t.latches.exMem = executeStage s.latches.idEx := by
  obtain ⟨_, _, _, hc⟩ := cycleCompletes_cycle h
  exact hc.exMem

theorem cycleCompletes_memWb (h : CycleCompletes s t) : t.latches.memWb =
    { regWrite := s.latches.exMem.regWrite
      memToReg := s.latches.exMem.memToReg
      readData := if s.latches.exMem.memRead = true then
        readWord s.dmem s.latches.exMem.aluResult.toNat else 0#32
      aluResult := s.latches.exMem.aluResult
      reg := s.latches.exMem.reg } := by
  obtain ⟨_, _, _, hc⟩ := cycleCompletes_cycle h
  exact hc.memWb

/-- `cycle_proceed` by the word: what IF left stands, but for a control stall. -/
theorem cycleCompletes_proceed (h : CycleCompletes s t)
    (hstall : dataStall s (sources s.latches.ifId.inst) = 0#8) :
    ∃ f, fetchStage s = .ok f ∧ t.latches.ifId = f.ifId ∧ t.pc = f.pc ∧
      t.bubblesRemaining = maxCount f.bubbles
        (controlHazard s.params.haz (isTransfer s.latches.ifId.inst)) ∧
      t.instructionCount = f.instructionCount := by
  obtain ⟨i, f, hi, hc⟩ := cycleCompletes_cycle h
  rw [sources_of_decode_ok hi] at hstall
  obtain ⟨-, hifId, hpc, hbubbles, hcount⟩ := cycle_proceed hc hstall
  rw [encode_of_decode_ok hi] at hbubbles
  exact ⟨f, hc.fetch, hifId, hpc, hbubbles, hcount⟩

/-- `cycle_cancel` by the word: nothing of what IF left stands. -/
theorem cycleCompletes_cancel (h : CycleCompletes s t)
    (hstall : dataStall s (sources s.latches.ifId.inst) ≠ 0#8) :
    ∃ f, fetchStage s = .ok f ∧
      t.latches.ifId = { inst := 0#32, pc := s.latches.ifId.pc - 4#32 } ∧
      t.pc = s.latches.ifId.pc - 4#32 ∧
      t.bubblesRemaining =
        maxCount (maxCount f.bubbles (dataStall s (sources s.latches.ifId.inst)))
          (controlHazard s.params.haz (isTransfer s.latches.ifId.inst)) - 1#8 ∧
      t.instructionCount = f.instructionCount - 1 - f.fetched := by
  obtain ⟨i, f, hi, hc⟩ := cycleCompletes_cycle h
  rw [sources_of_decode_ok hi] at hstall ⊢
  obtain ⟨-, hifId, hpc, hbubbles, hcount⟩ := cycle_cancel hc hstall
  rw [encode_of_decode_ok hi] at hbubbles
  exact ⟨f, hc.fetch, hifId, hpc, hbubbles, hcount⟩

/-- What ID latches of a word that no data stall cancels (R145). -/
theorem cycleCompletes_idEx_proceed {i : Instr} (h : CycleCompletes s t)
    (hi : decode s.latches.ifId.inst = .ok i)
    (hstall : dataStall s (sources s.latches.ifId.inst) = 0#8) :
    t.latches.idEx = latchIdEx s.params.r0Hardwired (regsInDecode s) (Control.ofInstr i)
      s.latches.ifId.inst s.latches.ifId.pc := by
  have hword := decodedWord_proceed hstall
  have hidEx := cycleCompletes_idEx h (hword ▸ controlUnit_of_decode_ok hi)
  rwa [hword, if_pos hstall] at hidEx

/-- What ID latches under a data stall: a bubble (R141). -/
theorem cycleCompletes_idEx_cancel (h : CycleCompletes s t)
    (hstall : dataStall s (sources s.latches.ifId.inst) ≠ 0#8) :
    t.latches.idEx = latchIdEx s.params.r0Hardwired (regsInDecode s) Control.nopRow 0#32
      (s.latches.ifId.pc - 4#32) := by
  have hword := decodedWord_cancel hstall
  have hidEx := cycleCompletes_idEx h (hword ▸ controlUnit_of_decode_ok decode_zero)
  rwa [hword, if_neg hstall] at hidEx

end Completed

/-! ### What IF leaves (R130 to R134) -/

section Fetch
variable {s : State} {f : FetchOut}

/-- With no stall pending IF fetches (R132 to R134). -/
theorem fetchStage_fetched (h : fetchStage s = .ok f) (hb : s.bubblesRemaining = 0#8) :
    ∃ w, fetchWord s.imem s.params.imemLen (redirect s.pc s.latches.exMem) = .ok w ∧
      f = { ifId := { inst := w, pc := redirect s.pc s.latches.exMem + 4#32 },
            pc := redirect s.pc s.latches.exMem + 4#32, bubbles := 0#8,
            instructionCount := s.instructionCount + 1, fetched := 1 } := by
  obtain ⟨hne, -⟩ | ⟨-, hw⟩ := fetchStage_ok h
  · exact absurd hb hne
  · exact hw

/-- With a stall pending IF injects a bubble (R131). -/
theorem fetchStage_bubble (h : fetchStage s = .ok f) (hb : s.bubblesRemaining ≠ 0#8) :
    f = { ifId := { inst := 0#32, pc := s.pc }, pc := s.pc, bubbles := s.bubblesRemaining - 1#8,
          instructionCount := s.instructionCount, fetched := 0 } := by
  obtain ⟨-, hf⟩ | ⟨h0, -⟩ := fetchStage_ok h
  · exact hf
  · exact absurd h0 hb

/-- The stall count after IF. -/
theorem fetchStage_bubbles (h : fetchStage s = .ok f) :
    f.bubbles = if s.bubblesRemaining = 0#8 then 0#8 else s.bubblesRemaining - 1#8 := by
  obtain ⟨hb, rfl⟩ | ⟨hb, w, -, rfl⟩ := fetchStage_ok h
  · rw [if_neg hb]
  · rw [if_pos hb]

end Fetch

end Sys2Proof.Machine

/-! PROOFS. The ALU and the addresses EX computes (spec/40_control_alu.md R97 to R104), and the labels of
the assembler that reach them (spec/30_encoding.md R82). -/

namespace Sys2Proof.Machine

/-! ### The ALU (R99, R102) -/

theorem alu_sub_eq_zero (a b : Word) : alu (some .sub) a b = 0#32 ↔ a = b := sub_eq_zero

theorem zeroFlag_iff (v : Word) : zeroFlag v = true ↔ v = 0#32 := beq_iff_eq

/-! ### Addresses (R104) -/

/-- A word offset added to a word address is a word address. -/
theorem branchAddr_aligned {pc : Word} (imm : Word) (h : pc.toNat % 4 = 0) :
    (branchAddr pc imm).toNat % 4 = 0 := by
  simp only [branchAddr, BitVec.toNat_add, BitVec.toNat_shiftLeft, Nat.shiftLeft_eq]
  omega

theorem jumpAddr_aligned (pc : Word) (n : BitVec 26) : (jumpAddr pc n).toNat % 4 = 0 := by
  simp only [jumpAddr, BitVec.toNat_cast, BitVec.toNat_append, Nat.shiftLeft_eq]
  simp

/-- The next word address. -/
theorem add_four_aligned {a : Word} (h : a.toNat % 4 = 0) : (a + 4#32).toNat % 4 = 0 := by
  simp only [BitVec.toNat_add]
  simp
  omega

theorem sub_four_aligned {a : Word} (h : a.toNat % 4 = 0) : (a - 4#32).toNat % 4 = 0 := by
  simp only [BitVec.toNat_sub]
  simp
  omega

/-! ### Labels (R82) -/

/-- A number in range for a 16-bit immediate is what the field extends to. -/
theorem sext16_ofInt {d : Int} (hlo : -32768 ≤ d) (hhi : d ≤ 32767) :
    sext16 (BitVec.ofInt 16 d) = BitVec.ofInt 32 d := by
  rw [sext16, BitVec.signExtend, BitVec.toInt_ofInt, Int.bmod_eq_of_le (by omega) (by omega)]

/-- The distance of a label in words, put into the 16-bit field, is the distance EX adds. -/
theorem branchAddr_branchDistance {a label : Word} (h : branchReaches a label = true) :
    branchAddr (a + 4#32) (sext16 (BitVec.ofInt 16 (branchDistance a label / 4))) = label := by
  simp only [branchReaches, immInRange, Bool.and_eq_true, decide_eq_true_eq] at h
  obtain ⟨hmod, hlo, hhi⟩ := h
  have hdist : (a.toNat : Int) + 4 + branchDistance a label / 4 * 4 = label.toNat := by
    unfold branchDistance at hmod ⊢
    omega
  calc branchAddr (a + 4#32) (sext16 (BitVec.ofInt 16 (branchDistance a label / 4)))
      = a + 4#32 + BitVec.ofInt 32 (branchDistance a label / 4) * 4#32 := by
        rw [sext16_ofInt hlo hhi, branchAddr, BitVec.shiftLeft_eq_mul_twoPow]
        rfl
    _ = BitVec.ofInt 32 ((a.toNat : Int) + 4 + branchDistance a label / 4 * 4) := by
        rw [BitVec.ofInt_add, BitVec.ofInt_add, BitVec.ofInt_mul, BitVec.ofInt_natCast,
          BitVec.ofNat_toNat]
        rfl
    _ = label := by rw [hdist, BitVec.ofInt_natCast, BitVec.ofNat_toNat, BitVec.setWidth_eq]

theorem jumpAddr_of_reaches {a label : Word} (h : jumpReaches a label = true) :
    jumpAddr (a + 4#32) (label.extractLsb' 2 26) = label := by
  simp only [jumpReaches, Bool.and_eq_true, decide_eq_true_eq] at h
  obtain ⟨htop, halign⟩ := h
  rw [jumpAddr, ← htop]
  have hlow : label.extractLsb' 0 2 = 0#2 := BitVec.eq_of_toNat_eq (by simpa using halign)
  rw [← hlow]
  grind

end Sys2Proof.Machine

namespace Sys2Proof

open Sys2Proof.Machine

/-- Settles O10: the rows of the table, the R-format ones by the funct. -/
theorem aluControlTable : Obligations.AluControlTable :=
  fun _ => ⟨rfl, rfl, rfl, rfl⟩

/-- Settles O12: the ALU adds and subtracts as bit vectors do, whose unsigned and signed readings agree
modulo 2^32. -/
theorem addAndSubWrap : Obligations.AddAndSubWrap := by
  intro a b
  refine ⟨BitVec.toNat_add a b, ?_, ?_, ?_⟩
  · have hsub : (alu (some .sub) a b).toNat = (2 ^ 32 - b.toNat + a.toNat) % 2 ^ 32 :=
      BitVec.toNat_sub a b
    have hb := b.isLt
    omega
  · rw [BitVec.ofInt_add, BitVec.ofInt_toInt, BitVec.ofInt_toInt]
    rfl
  · rw [Int.sub_eq_add_neg, BitVec.ofInt_add, BitVec.ofInt_neg, BitVec.ofInt_toInt,
      BitVec.ofInt_toInt, ← BitVec.sub_eq_add_neg]
    rfl

/-- Settles O13: the latches EX and MEM leave in every cycle, and a difference is 0 for equal operands
only. -/
theorem zeroFlagFollowsResult : Obligations.ZeroFlagFollowsResult := by
  refine ⟨fun s t h => ⟨?_, ?_, cycleCompletes_memWb h⟩, alu_sub_eq_zero⟩
  · rw [cycleCompletes_exMem h]
    exact zeroFlag_iff _
  · rw [cycleCompletes_exMem h]
    rfl

/-- Settles O14: a branch target is a word offset from the latched pc, a jump target ends in two zero
bits. -/
theorem targetsAreAligned : Obligations.TargetsAreAligned :=
  fun e h => ⟨branchAddr_aligned e.imm h, jumpAddr_aligned e.pc e.addr⟩

/-- Settles O7: a label the assembler accepts is in reach, and the field it encodes leads EX back to
it. -/
theorem labelsReachTheirAddress : Obligations.LabelsReachTheirAddress := by
  refine ⟨fun a label rs rt i h => ?_, fun a label i h => ?_⟩
  · obtain ⟨hwf, rfl⟩ : _ ∧ translateSource a (.beqTo rs rt label) = i := by
      simpa only [assemble, Option.ite_none_right_eq_some, Option.some.injEq] using h
    simp only [SourceInstr.wellFormed, Bool.and_eq_true] at hwf
    exact ⟨_, _, _, rfl, branchAddr_branchDistance hwf.2⟩
  · obtain ⟨hwf, rfl⟩ : _ ∧ translateSource a (.jTo label) = i := by
      simpa only [assemble, Option.ite_none_right_eq_some, Option.some.injEq] using h
    exact ⟨_, rfl, jumpAddr_of_reaches hwf⟩

end Sys2Proof

/-! PROOFS. The hazard unit (spec/41_hazard_unit.md R110 to R116). -/

namespace Sys2Proof.Machine

/-! ### The source registers (R112) -/

theorem sourcesOf_rInstr (op : AluMnemonic) (rd rs rt : RegNum) (shamt : BitVec 5) :
    sourcesOf (rInstr op rd rs rt shamt) = [rs, rt] := by
  cases op <;> rfl

/-- The source set of a word, as fields of the word. -/
theorem mem_sources_iff (w : Word) (r : RegNum) : r ∈ sources w ↔
    match decode w with
    | .ok (.add ..) | .ok (.sub ..) | .ok (.and ..) | .ok (.or ..) | .ok (.slt ..) | .ok (.sw ..)
    | .ok (.beq ..) => r = rsField w ∨ r = rtField w
    | .ok (.lw ..) => r = rsField w
    | .ok (.j ..) | .ok .nop | .error _ => False := by
  cases h : decode w with
  | error e => simp [sources, h]
  | ok i =>
    rw [sources_of_decode_ok h, ← encode_of_decode_ok h]
    cases i <;> simp [sourcesOf, encode]

/-! ### The two checks (R111, R113) -/

/-- The count of a condition: the count if it holds, else none. -/
theorem toNat_ite_count (p : Prop) [Decidable p] (c : BitVec 8) :
    (if p then c else 0#8).toNat = if p then c.toNat else 0 := by
  split <;> rfl

theorem dataHazard_toNat (haz : HazardCounts) (srcs : List RegNum) (p : Latches) :
    (dataHazard haz srcs p).toNat =
      max (max (if p.exMem.regWrite = true ∧ p.exMem.reg ∈ srcs then haz.exMem.toNat else 0)
        (if p.memWb.regWrite = true ∧ p.memWb.reg ∈ srcs then haz.memWb.toNat else 0))
        (if p.idEx.ctrl.memRead = true ∧ p.idEx.rt ∈ srcs then haz.load.toNat else 0) := by
  simp only [dataHazard, maxCount_toNat, toNat_ite_count]

theorem isTransfer_iff (w : Word) : isTransfer w = true ↔
    w ≠ 0#32 ∧ (opcodeField w = opcodeBeq ∨ opcodeField w = opcodeJ) := by
  simp [isTransfer]

/-- No source register, no data hazard. -/
theorem dataHazard_nil (haz : HazardCounts) (p : Latches) : dataHazard haz [] p = 0#8 := by
  simp [dataHazard, maxCount]

/-! ### The default counts (R116) -/

section DefaultCounts
variable (srcs : List RegNum) (p : Latches)

/-- A producer two bubbles away: in EX/MEM, or a load in ID/EX. -/
abbrev TwoBubbleHazard : Prop :=
  (p.exMem.regWrite = true ∧ p.exMem.reg ∈ srcs) ∨ (p.idEx.ctrl.memRead = true ∧ p.idEx.rt ∈ srcs)

/-- A producer one bubble away: in MEM/WB. -/
abbrev OneBubbleHazard : Prop := p.memWb.regWrite = true ∧ p.memWb.reg ∈ srcs

variable {srcs p}

theorem dataHazard_two (h : TwoBubbleHazard srcs p) : dataHazard {} srcs p = 2#8 := by
  apply BitVec.eq_of_toNat_eq
  rw [dataHazard_toNat]
  obtain h | h := h
  · rw [if_pos h]; split <;> split <;> rfl
  · rw [if_pos h]; split <;> split <;> rfl

theorem dataHazard_one (htwo : ¬TwoBubbleHazard srcs p) (hone : OneBubbleHazard srcs p) :
    dataHazard {} srcs p = 1#8 := by
  obtain ⟨hex, hld⟩ := not_or.1 htwo
  apply BitVec.eq_of_toNat_eq
  rw [dataHazard_toNat, if_neg hex, if_neg hld, if_pos hone]
  rfl

theorem dataHazard_none (htwo : ¬TwoBubbleHazard srcs p) (hone : ¬OneBubbleHazard srcs p) :
    dataHazard {} srcs p = 0#8 := by
  obtain ⟨hex, hld⟩ := not_or.1 htwo
  apply BitVec.eq_of_toNat_eq
  rw [dataHazard_toNat, if_neg hex, if_neg hld, if_neg hone]
  rfl

/-- The default data check answers 0, 1 or 2. -/
theorem dataHazard_default_cases (srcs : List RegNum) (p : Latches) :
    dataHazard {} srcs p = 0#8 ∨ dataHazard {} srcs p = 1#8 ∨ dataHazard {} srcs p = 2#8 := by
  by_cases htwo : TwoBubbleHazard srcs p
  · exact .inr (.inr (dataHazard_two htwo))
  · by_cases hone : OneBubbleHazard srcs p
    · exact .inr (.inl (dataHazard_one htwo hone))
    · exact .inl (dataHazard_none htwo hone)

/-- The default control check answers at most 1, so it does not take the unit's answer out of 0, 1, 2. -/
theorem detected_default_cases (w : Word) (p : Latches) :
    detected {} w p = 0#8 ∨ detected {} w p = 1#8 ∨ detected {} w p = 2#8 := by
  unfold detected
  obtain hd | hd | hd := dataHazard_default_cases (sources w) p
  · rw [hd]
    cases isTransfer w <;> decide
  · rw [hd]
    cases isTransfer w <;> decide
  · rw [hd]
    cases isTransfer w <;> decide

end DefaultCounts

end Sys2Proof.Machine

namespace Sys2Proof

open Sys2Proof.Machine

/-- Settles O15: the source sets and the two checks for every table, then the default counts by the
nearest producer; in the worked example the load is two bubbles away and `add` is no transfer. -/
theorem defaultHazardCounts : Obligations.DefaultHazardCounts := by
  refine ⟨fun w r => ?_, dataHazard_toNat, fun haz w p => ?_, fun w p => ?_, fun p hctrl hrt => ?_⟩
  · exact mem_sources_iff w r
  · rw [detected, maxCount_toNat, controlHazard, toNat_ite_count]
    simp only [isTransfer_iff]
    rfl
  · exact ⟨detected_default_cases w p, fun h => dataHazard_two h, fun h h' => dataHazard_one h h',
      fun h h' => dataHazard_none h h'⟩
  · have hsources : sources 0x00211020#32 = [1#5, 1#5] := by decide
    have htwo : TwoBubbleHazard (sources 0x00211020#32) p :=
      .inr ⟨by rw [hctrl]; rfl, by rw [hrt, hsources]; decide⟩
    rw [detected, dataHazard_two htwo]
    decide

/-- Settles O16: the only condition that reads ID/EX asks for a load there. -/
theorem nonLoadInIdExIsNotCompared : Obligations.NonLoadInIdExIsNotCompared := by
  intro haz srcs p q hexMem hmemWb hp hq
  simp [dataHazard, hexMem, hmemWb, hp, hq]

end Sys2Proof

/-! PROOFS. What one completed cycle does to data memory, `pc`, the front latches and the counts
(spec/42_pipeline.md R130 to R151), and which word the next step runs. -/

namespace Sys2Proof.Machine

/-! ### Stores (R51, R148) -/

/-- A stored word, byte by byte, by the distance from its address. -/
theorem readByte_writeWord_offset {m : Memory} (a : Nat) (v : Word) (x : Nat)
    (h : Memory.wf m = true) :
    readByte (writeWord m a v) x =
      if a ≤ x ∧ x < a + 4 then v.extractLsb' (24 - 8 * (x - a)) 8 else readByte m x := by
  split
  · next hx =>
    obtain ⟨d, rfl⟩ := Nat.exists_eq_add_of_le hx.1
    have hd : d < 4 := by omega
    obtain ⟨h0, h1, h2, h3⟩ := readByte_writeWord_covered a v h
    rw [Nat.add_sub_cancel_left]
    interval_cases d
    · exact h0
    · exact h1
    · exact h2
    · exact h3
  · next hx => exact readByte_writeWord_outside a v h (by omega)

/-! ### Fetch (R47) -/

section FetchWord
variable {imem : Memory} {len : Nat} {a : Word}

theorem fetchWord_inside (halign : a.toNat % 4 = 0) (hin : a.toNat + 4 ≤ len) :
    fetchWord imem len a = .ok (readWord imem a.toNat) := by
  rw [fetchWord, if_neg (not_not_intro halign), if_pos hin]

theorem fetchWord_past (halign : a.toNat % 4 = 0) (hpast : len ≤ a.toNat) :
    fetchWord imem len a = .ok 0#32 := by
  rw [fetchWord, if_neg (not_not_intro halign), if_neg (by omega), if_pos hpast]

theorem fetchWord_undefined (h : a.toNat % 4 ≠ 0 ∨ (a.toNat < len ∧ len < a.toNat + 4)) :
    fetchWord imem len a = .error (.undefinedFetch a) := by
  by_cases halign : a.toNat % 4 ≠ 0
  · rw [fetchWord, if_pos halign]
  · rw [fetchWord, if_neg halign, if_neg (by omega), if_neg (by omega)]

end FetchWord

/-! ### Runs -/

/-- A stopped core stays as it is (R155). -/
theorem step_stopped {s : State} (h : s.running = false) : step s = .next s := by
  rw [step, if_neg (by simp [h])]

theorem run_stopped (k : Nat) {s : State} (h : s.running = false) :
    Sys2Proof.core.run k s = .next s := by
  induction k with
  | zero => rfl
  | succ k ih => exact run_succ.2 ⟨s, step_stopped h, ih⟩

/-- A fault stops the core in the state it recorded. -/
theorem step_raise (s : State) (r : FaultRecord) : step (s.raise r) = .next (s.raise r) :=
  step_stopped (raise_running s r)

/-! ### Control transfers (R113) -/

/-- An instruction is a control transfer when its control row branches or jumps. -/
theorem isTransfer_encode_eq (i : Instr) :
    isTransfer (encode i) = ((Control.ofInstr i).branch || (Control.ofInstr i).jump) := by
  rw [isTransfer_encode]
  cases i <;> rfl

end Sys2Proof.Machine

namespace Sys2Proof

open Sys2Proof.Machine

/-- Settles O18: the three outcomes of a fetch, by its address. -/
theorem fetchGivesWordOrNop : Obligations.FetchGivesWordOrNop :=
  fun _ _ _ => ⟨fetchWord_inside, fetchWord_past, fetchWord_undefined⟩

/-- Settles O20: data memory after a cycle is the word MEM stores, byte by byte, or as it was. -/
theorem onlyStoresChangeDataMemory : Obligations.OnlyStoresChangeDataMemory := by
  intro s t h hwf
  refine ⟨fun x => ?_, cycleCompletes_imem h, cycleCompletes_params h, cycleCompletes_fault h⟩
  rw [cycleCompletes_dmem h]
  by_cases hw : s.latches.exMem.memWrite = true
  · simp only [hw, if_true, true_and]
    exact readByte_writeWord_offset _ _ x hwf
  · simp [hw]

/-- Settles O23: by whether IF fetched and whether ID cancelled; a cancelled word was counted, so the
subtraction is exact. -/
theorem instructionCountIsExact : Obligations.InstructionCountIsExact := by
  intro s t h hcounted fetched
  by_cases hstall : dataStall s (sources s.latches.ifId.inst) = 0#8
  · obtain ⟨f, hf, -, -, -, hcount⟩ := cycleCompletes_proceed h hstall
    rw [if_pos hstall, hcount]
    obtain ⟨hb, rfl⟩ | ⟨hb, w, -, rfl⟩ := fetchStage_ok hf
    · simp [fetched, hb]
    · simp [fetched, hb]
  · obtain ⟨f, hf, -, -, -, hcount⟩ := cycleCompletes_cancel h hstall
    have hword : s.latches.ifId.inst ≠ 0#32 := fun hzero =>
      hstall (by rw [hzero, sources_of_decode_ok decode_zero]; exact dataHazard_nil _ _)
    have hpos := hcounted hword
    rw [if_neg hstall, hcount]
    obtain ⟨hb, rfl⟩ | ⟨hb, w, -, rfl⟩ := fetchStage_ok hf
    · simp only [fetched, if_neg hb]
      omega
    · simp only [fetched, if_pos hb]
      omega

/-- Settles O24. -/
theorem stepRunsTheDecodedInstruction : Obligations.StepRunsTheDecodedInstruction :=
  fun _ _ => step_of_decode_ok

/-- Settles O25: what IF leaves stands when ID cancels nothing (`cycleCompletes_proceed`), and it is the
fetched word or the injected bubble. -/
theorem fetchedWordRunsNext : Obligations.FetchedWordRunsNext := by
  refine ⟨fun s t w i h hb hstall hfetch hi hlive => ?_, fun s t h hb hstall => ?_⟩
  · obtain ⟨f, hf, hifId, hpc, -, -⟩ := cycleCompletes_proceed h hstall
    obtain ⟨w', hw', rfl⟩ := fetchStage_fetched hf hb
    obtain rfl : w = w' := Except.ok.inj (hfetch.symm.trans hw')
    exact ⟨hifId, hpc, step_of_decode_ok hlive (by rw [hifId]; exact hi)⟩
  · obtain ⟨f, hf, hifId, hpc, hbubbles, hcount⟩ := cycleCompletes_proceed h hstall
    obtain rfl := fetchStage_bubble hf hb
    exact ⟨hifId, hpc, hcount, hbubbles⟩

/-- Settles O26: the placed word stands in IF/ID of a live core, and lies in instruction memory at the
address it is fetched from. -/
theorem placedWordRunsNext : Obligations.PlacedWordRunsNext := by
  intro s nbits w i hi hwf halign
  refine ⟨step_of_decode_ok ⟨rfl, rfl⟩ hi, ?_⟩
  have hin : s.pc.toNat + 4 ≤ (s.withFetchWord nbits w).params.imemLen := le_max_right _ _
  rw [fetchWord_inside halign hin]
  exact congrArg _ (readWord_writeWord _ _ hwf)

/-- Settles O27: a word with a control row decodes, its meaning is the cycle of its instruction's row and
sources (`exec_eq`), and the word is its instruction's encoding. -/
theorem stepIsTheTableDrivenCycle : Obligations.StepIsTheTableDrivenCycle := by
  intro s c hlive hc
  cases hi : decode s.latches.ifId.inst with
  | error e =>
    rw [controlUnit_of_decode_error hi] at hc
    cases hc
  | ok i =>
    rw [controlUnit_of_decode_ok hi] at hc
    cases hc
    rw [step_of_decode_ok hlive hi, exec_eq, encode_of_decode_ok hi, sources_of_decode_ok hi]

/-- Settles O48: a step that sets the record raised a fault; a stopped core or a completed cycle leaves
it. -/
theorem faultCommitsNothing : Obligations.FaultCommitsNothing := by
  refine ⟨fun s t h hs ht => ?_, fun s e => step_of_decode_error⟩
  obtain ⟨-, rfl⟩ | ⟨-, r, rfl⟩ | hc := step_trichotomy h
  · exact absurd hs ht
  · exact ⟨r, rfl, step_raise s r⟩
  · exact absurd ((cycleCompletes_fault hc).trans hs) ht

/-- Settles O50, by induction on the number of steps. -/
theorem stoppedCoreIsFinal : Obligations.StoppedCoreIsFinal :=
  fun k _ h => run_stopped k h

end Sys2Proof

/-! PROOFS. Stalls and redirects over neighbouring cycles (spec/42_pipeline.md R131 to R142,
spec/45_branch_jump.md R182, R183, spec/70_reset_and_hazards.md R242 to R244). -/

namespace Sys2Proof.Machine

/-! ### Redirects (R132) -/

section Redirect
variable {e : IdEx} {l : ExMem} {pc : Word}

theorem redirect_of_none (hb : l.branch = false) (hj : l.jump = false) : redirect pc l = pc := by
  simp [redirect, hb, hj]

/-- A transfer that leaves EX taken redirects the next fetch to its target. -/
theorem redirect_executeStage_coming (h : redirectComing e) :
    redirect pc (executeStage e) = redirectTarget e := by
  simp only [redirect, redirectTarget, executeStage, zeroFlag_iff]
  split
  · rfl
  · next hbranch => exact if_pos (h.resolve_left hbranch)

theorem redirect_executeStage_none (h : ¬redirectComing e) : redirect pc (executeStage e) = pc := by
  obtain ⟨hbranch, hjump⟩ := not_or.1 h
  simp only [redirect, executeStage, zeroFlag_iff]
  rw [if_neg hbranch]
  exact if_neg hjump

theorem not_redirectComing_nopRow (h : e.ctrl = Control.nopRow) : ¬redirectComing e := by
  simp [redirectComing, h, Control.nopRow]

end Redirect

/-! ### Counts -/

@[simp] theorem maxCount_zero_left (c : BitVec 8) : maxCount 0#8 c = c := by
  apply BitVec.eq_of_toNat_eq
  simp [maxCount_toNat]

@[simp] theorem maxCount_zero_right (c : BitVec 8) : maxCount c 0#8 = c := by
  apply BitVec.eq_of_toNat_eq
  simp [maxCount_toNat]

/-- IF spends the last bubble of a stall. -/
theorem fetchStage_bubbles_zero {s : State} {f : FetchOut} (h : fetchStage s = .ok f)
    (hle : s.bubblesRemaining ≤ 1#8) : f.bubbles = 0#8 := by
  rw [fetchStage_bubbles h]
  split
  · rfl
  · next hb => bv_omega

/-- No producer in flight, no data stall. -/
theorem dataStall_eq_zero {s : State} {srcs : List RegNum}
    (hex : s.latches.exMem.regWrite = true → s.latches.exMem.reg ∉ srcs)
    (hwb : s.latches.memWb.regWrite = true → s.latches.memWb.reg ∉ srcs)
    (hld : s.latches.idEx.ctrl.memRead = true → s.latches.idEx.rt ∉ srcs) :
    dataStall s srcs = 0#8 := by
  apply BitVec.eq_of_toNat_eq
  rw [dataStall, dataHazard_toNat, if_neg (not_and.2 hex), if_neg (not_and.2 hwb),
    if_neg (not_and.2 hld)]
  rfl

/-- The word 0 reads no register, so no data stall cancels it. -/
theorem dataStall_bubble {s : State} (h : s.latches.ifId.inst = 0#32) :
    dataStall s (sources s.latches.ifId.inst) = 0#8 := by
  rw [h, sources_of_decode_ok decode_zero]
  exact dataHazard_nil _ _

theorem inst_ne_zero_of_stall {s : State} (h : dataStall s (sources s.latches.ifId.inst) ≠ 0#8) :
    s.latches.ifId.inst ≠ 0#32 :=
  fun hzero => h (dataStall_bubble hzero)

theorem isTransfer_zero : isTransfer 0#32 = false := rfl

/-! ### One cycle of the front of the pipeline -/

section Front
variable {s t : State}

/-- A cycle that fetches and cancels nothing (R132 to R134, R142). -/
theorem cycleCompletes_fetched (h : CycleCompletes s t) (hb : s.bubblesRemaining = 0#8)
    (hstall : dataStall s (sources s.latches.ifId.inst) = 0#8) :
    fetchWord s.imem s.params.imemLen (redirect s.pc s.latches.exMem) = .ok t.latches.ifId.inst ∧
    t.latches.ifId.pc = redirect s.pc s.latches.exMem + 4#32 ∧
    t.pc = redirect s.pc s.latches.exMem + 4#32 ∧
    t.bubblesRemaining = controlHazard s.params.haz (isTransfer s.latches.ifId.inst) := by
  obtain ⟨f, hf, hifId, hpc, hbubbles, -⟩ := cycleCompletes_proceed h hstall
  obtain ⟨w, hw, rfl⟩ := fetchStage_fetched hf hb
  rw [hifId, hbubbles, maxCount_zero_left]
  exact ⟨hw, rfl, hpc, rfl⟩

/-- A cycle that injects a bubble and cancels nothing (R131, R142). -/
theorem cycleCompletes_bubble (h : CycleCompletes s t) (hb : s.bubblesRemaining ≠ 0#8)
    (hstall : dataStall s (sources s.latches.ifId.inst) = 0#8) :
    t.latches.ifId = { inst := 0#32, pc := s.pc } ∧ t.pc = s.pc ∧
    t.bubblesRemaining = maxCount (s.bubblesRemaining - 1#8)
      (controlHazard s.params.haz (isTransfer s.latches.ifId.inst)) := by
  obtain ⟨f, hf, hifId, hpc, hbubbles, -⟩ := cycleCompletes_proceed h hstall
  obtain rfl := fetchStage_bubble hf hb
  exact ⟨hifId, hpc, hbubbles⟩

/-- A bubble in IF/ID enters ID/EX as the nop row (R191). -/
theorem cycleCompletes_idEx_bubble (h : CycleCompletes s t) (hinst : s.latches.ifId.inst = 0#32) :
    t.latches.idEx.ctrl = Control.nopRow := by
  rw [cycleCompletes_idEx_proceed h (hinst ▸ decode_zero) (dataStall_bubble hinst)]
  rfl

/-- A cancelled word enters ID/EX as the nop row (R141). -/
theorem cycleCompletes_ctrl_cancel (h : CycleCompletes s t)
    (hstall : dataStall s (sources s.latches.ifId.inst) ≠ 0#8) :
    t.latches.idEx.ctrl = Control.nopRow := by
  rw [cycleCompletes_idEx_cancel h hstall]
  rfl

/-- Under the default counts, with at most one bubble pending, only a transfer leaves a stall if nothing
is cancelled. -/
theorem default_bubbles_proceed (h : CycleCompletes s t) (hhaz : s.params.haz = {})
    (hle : s.bubblesRemaining ≤ 1#8)
    (hstall : dataStall s (sources s.latches.ifId.inst) = 0#8) :
    t.bubblesRemaining = if isTransfer s.latches.ifId.inst then 1#8 else 0#8 := by
  obtain ⟨f, hf, -, -, hbubbles, -⟩ := cycleCompletes_proceed h hstall
  rw [hbubbles, fetchStage_bubbles_zero hf hle, maxCount_zero_left, hhaz]
  rfl

/-- Under the default counts, with at most one bubble pending, a data stall leaves its count less one:
its count is at least the control count. -/
theorem default_bubbles_cancel (h : CycleCompletes s t) (hhaz : s.params.haz = {})
    (hle : s.bubblesRemaining ≤ 1#8)
    (hstall : dataStall s (sources s.latches.ifId.inst) ≠ 0#8) :
    t.bubblesRemaining = dataStall s (sources s.latches.ifId.inst) - 1#8 := by
  obtain ⟨f, hf, -, -, hbubbles, -⟩ := cycleCompletes_cancel h hstall
  rw [hbubbles, fetchStage_bubbles_zero hf hle, maxCount_zero_left, hhaz]
  have hctrl : (controlHazard {} (isTransfer s.latches.ifId.inst)).toNat ≤ 1 := by
    cases isTransfer s.latches.ifId.inst <;> decide
  congr 1
  apply BitVec.eq_of_toNat_eq
  rw [maxCount_toNat]
  bv_omega

/-- The two together: what a cycle leaves pending under the default counts. -/
theorem default_bubbles (h : CycleCompletes s t) (hhaz : s.params.haz = {})
    (hle : s.bubblesRemaining ≤ 1#8) :
    t.bubblesRemaining =
      if dataStall s (sources s.latches.ifId.inst) = 0#8 then
        if isTransfer s.latches.ifId.inst then 1#8 else 0#8
      else dataStall s (sources s.latches.ifId.inst) - 1#8 := by
  split
  · next hstall => exact default_bubbles_proceed h hhaz hle hstall
  · next hstall => exact default_bubbles_cancel h hhaz hle hstall

/-- A cycle that starts with a stall pending leaves a bubble in IF/ID, whatever word it decodes: the
fetch is suppressed, or squashed with the cancelled word. -/
theorem cycleCompletes_stalled (h : CycleCompletes s t) (hb : s.bubblesRemaining ≠ 0#8) :
    t.latches.ifId.inst = 0#32 ∧
    t.pc = if dataStall s (sources s.latches.ifId.inst) = 0#8 then s.pc
      else s.latches.ifId.pc - 4#32 := by
  split
  · next hstall =>
    obtain ⟨hifId, hpc, -⟩ := cycleCompletes_bubble h hb hstall
    exact ⟨by rw [hifId], hpc⟩
  · next hstall =>
    obtain ⟨f, -, hifId, hpc, -, -⟩ := cycleCompletes_cancel h hstall
    exact ⟨by rw [hifId], hpc⟩

/-- The default data stall is 0, 1 or 2. -/
theorem dataStall_default_cases (hhaz : s.params.haz = {}) (srcs : List RegNum) :
    dataStall s srcs = 0#8 ∨ dataStall s srcs = 1#8 ∨ dataStall s srcs = 2#8 := by
  rw [dataStall, hhaz]
  exact dataHazard_default_cases srcs s.latches

end Front

/-! ### The return of a cancelled word (R141) -/

section Return
variable {s t u : State}

/-- The cycle after a bubble stands in IF/ID, with no stall pending and no redirect, fetches at `pc`. -/
theorem refetch (h : CycleCompletes t u) (hinst : t.latches.ifId.inst = 0#32)
    (hb : t.bubblesRemaining = 0#8) (hpc : t.pc = s.latches.ifId.pc - 4#32)
    (hredirect : redirect t.pc t.latches.exMem = t.pc) (himem : t.imem = s.imem)
    (hparams : t.params = s.params) (hmem : InstFromMemory s)
    (hword : s.latches.ifId.inst ≠ 0#32) : u.latches.ifId = s.latches.ifId := by
  obtain ⟨hfetch, hifIdPc, -, -⟩ := cycleCompletes_fetched h hb (dataStall_bubble hinst)
  rw [hredirect, hpc] at hfetch hifIdPc
  rw [himem, hparams, hmem hword] at hfetch
  have hinst : u.latches.ifId.inst = s.latches.ifId.inst := (Except.ok.inj hfetch).symm
  have hpc : u.latches.ifId.pc = s.latches.ifId.pc := by rw [hifIdPc, BitVec.sub_add_cancel]
  cases hu : u.latches.ifId
  cases hs : s.latches.ifId
  simp_all

/-- After a 1-bubble stall the word is fetched again in the next cycle. -/
theorem cancelled_returns_one (hmem : InstFromMemory s) (hhaz : s.params.haz = {})
    (hle : s.bubblesRemaining ≤ 1#8) (h1 : CycleCompletes s t) (h2 : CycleCompletes t u)
    (hstall : dataStall s (sources s.latches.ifId.inst) = 1#8)
    (hnone : ¬redirectComing s.latches.idEx) : u.latches.ifId = s.latches.ifId := by
  have hne : dataStall s (sources s.latches.ifId.inst) ≠ 0#8 := by rw [hstall]; decide
  obtain ⟨f, -, hifId, hpc, -, -⟩ := cycleCompletes_cancel h1 hne
  have hb : t.bubblesRemaining = 0#8 := by
    rw [default_bubbles_cancel h1 hhaz hle hne, hstall]
    rfl
  refine refetch h2 (by rw [hifId]) hb hpc ?_ (cycleCompletes_imem h1) (cycleCompletes_params h1)
    hmem (inst_ne_zero_of_stall hne)
  rw [cycleCompletes_exMem h1, redirect_executeStage_none hnone]

/-- After a 2-bubble stall the next cycle injects a second bubble, and the one after fetches the word
again: any redirect was lost to the bubble. -/
theorem cancelled_returns_two {v : State} (hmem : InstFromMemory s) (hhaz : s.params.haz = {})
    (hle : s.bubblesRemaining ≤ 1#8) (h1 : CycleCompletes s t) (h2 : CycleCompletes t u)
    (h3 : CycleCompletes u v) (hstall : dataStall s (sources s.latches.ifId.inst) = 2#8) :
    u.latches.ifId.inst = 0#32 ∧ v.latches.ifId = s.latches.ifId := by
  have hne : dataStall s (sources s.latches.ifId.inst) ≠ 0#8 := by rw [hstall]; decide
  obtain ⟨f, -, hifId, hpc, -, -⟩ := cycleCompletes_cancel h1 hne
  have hinst : t.latches.ifId.inst = 0#32 := by rw [hifId]
  have hb : t.bubblesRemaining = 1#8 := by
    rw [default_bubbles_cancel h1 hhaz hle hne, hstall]
    rfl
  obtain ⟨hifId', hpc', hb'⟩ := cycleCompletes_bubble h2 (by rw [hb]; decide)
    (dataStall_bubble hinst)
  rw [hinst, hb, isTransfer_zero] at hb'
  have hinst' : u.latches.ifId.inst = 0#32 := by rw [hifId']
  refine ⟨hinst', refetch h3 hinst' hb' (hpc'.trans hpc) ?_
    ((cycleCompletes_imem h2).trans (cycleCompletes_imem h1))
    ((cycleCompletes_params h2).trans (cycleCompletes_params h1)) hmem (inst_ne_zero_of_stall hne)⟩
  rw [cycleCompletes_exMem h2,
    redirect_executeStage_none (not_redirectComing_nopRow (cycleCompletes_ctrl_cancel h1 hne))]

end Return

/-! ### Operands (R128, R129) -/

/-- ID reads the register file as it stood, if WB does not write the register. -/
theorem operandInDecode_unwritten {s : State} {i : RegNum}
    (h : s.latches.memWb.regWrite = true → i ≠ s.latches.memWb.reg) :
    operandInDecode s i = readReg s.params.r0Hardwired s.regs i := by
  have hkept : (regsInDecode s)[i.toNat] = s.regs[i.toNat] := by
    rw [regsInDecode, getElem_writeBack, if_neg fun hw => h hw.1 hw.2.1]
  rw [operandInDecode, readReg, readReg, hkept]

/-- What a register reads after a register write. -/
theorem readReg_writeReg_same (r0 : Bool) (regs : Registers) (i : RegNum) (v : Word) :
    readReg r0 (writeReg r0 regs i v) i = if r0 = true ∧ i = 0#5 then 0#32 else v := by
  rw [readReg, getElem_writeReg]
  by_cases h : r0 = true ∧ i = 0#5
  · rw [if_pos h, if_pos h]
  · rw [if_neg h, if_neg h, if_pos ⟨rfl, h⟩]

end Sys2Proof.Machine

namespace Sys2Proof

open Sys2Proof.Machine

/-- Settles O30: the cancel of R141 (`cycleCompletes_cancel`), with the stall count IF left. -/
theorem dataStallCancelsTheWord : Obligations.DataStallCancelsTheWord := by
  intro s t h hstall
  obtain ⟨f, hf, hifId, hpc, hbubbles, -⟩ := cycleCompletes_cancel h hstall
  refine ⟨hpc, hifId, cycleCompletes_ctrl_cancel h hstall, ?_, ?_⟩
  · rw [cycleCompletes_idEx_cancel h hstall]
    rfl
  · rw [hbubbles, fetchStage_bubbles hf]
    rfl

/-- Settles O31: after one bubble, or two, the word is fetched again from its own address. -/
theorem cancelledWordReturns : Obligations.CancelledWordReturns := by
  intro s t1 t2 hmem hhaz hle h1 h2
  exact ⟨cancelled_returns_one hmem hhaz hle h1 h2,
    fun t3 h3 hstall => (cancelled_returns_two hmem hhaz hle h1 h2 h3 hstall).2⟩

/-- Settles O32: the transfer proceeds with its own control row, the fetched word stands behind it, and
the control count of 1 is pending. -/
theorem controlStallKeepsTheDelaySlot : Obligations.ControlStallKeepsTheDelaySlot := by
  intro s t h hb hhaz htransfer hstall
  obtain ⟨hfetch, hifIdPc, -, hbubbles⟩ := cycleCompletes_fetched h hb hstall
  obtain ⟨i, -, hi, -⟩ := cycleCompletes_cycle h
  have hidEx := cycleCompletes_idEx_proceed h hi hstall
  refine ⟨?_, by rw [hidEx]; rfl, hfetch, hifIdPc, ?_⟩
  · rw [← encode_of_decode_ok hi, isTransfer_encode_eq, Bool.or_eq_true] at htransfer
    rw [hidEx]
    exact htransfer
  · rw [hbubbles, htransfer, hhaz]
    rfl

/-- Settles O33: the delay slot leaves a stall of 1, which loses the redirect to a bubble, or none, and
then the fetch goes to the target. -/
theorem delaySlotDecidesRedirect : Obligations.DelaySlotDecidesRedirect := by
  intro s t1 t2 hhaz hb hcoming h1 h2 stall
  have hle : s.bubblesRemaining ≤ 1#8 := by rw [hb]; decide
  obtain ⟨hinst, hpc⟩ : t1.latches.ifId.inst = 0#32 ∧
      t1.pc = if stall = 0#8 then s.pc else s.latches.ifId.pc - 4#32 :=
    cycleCompletes_stalled h1 (by rw [hb]; decide)
  have hbubbles : t1.bubblesRemaining = if stall = 0#8 then
      if isTransfer s.latches.ifId.inst then 1#8 else 0#8 else stall - 1#8 :=
    default_bubbles h1 hhaz hle
  refine ⟨cycleCompletes_ctrl_cancel h1, fun hlost => ?_, fun hkept => ?_⟩
  · have hb1 : t1.bubblesRemaining = 1#8 := by
      rw [hbubbles]
      obtain hstall | ⟨hstall, htransfer⟩ := hlost
      · rw [hstall]; rfl
      · rw [if_pos hstall, htransfer]; rfl
    obtain ⟨hifId2, hpc2, -⟩ := cycleCompletes_bubble h2 (by rw [hb1]; decide)
      (dataStall_bubble hinst)
    refine ⟨by rw [hifId2], ?_⟩
    rw [hpc2, hpc]
    obtain hstall | ⟨hstall, -⟩ := hlost
    · rw [hstall]; rfl
    · rw [hstall]; rfl
  · have hb1 : t1.bubblesRemaining = 0#8 := by
      rw [hbubbles]
      obtain hstall | ⟨hstall, htransfer⟩ := hkept
      · rw [hstall]; rfl
      · rw [if_pos hstall, htransfer]; rfl
    obtain ⟨hfetch, -, hpc2, -⟩ := cycleCompletes_fetched h2 hb1 (dataStall_bubble hinst)
    rw [cycleCompletes_exMem h1, redirect_executeStage_coming hcoming] at hfetch hpc2
    rw [cycleCompletes_imem h1, cycleCompletes_params h1] at hfetch
    exact ⟨hfetch, hpc2⟩

/-- Settles O34: the non-load just before is no producer the hazard unit sees, and it has not reached
WB, which writes no source either. -/
theorem distanceOneReadsTheOldValue : Obligations.DistanceOneReadsTheOldValue := by
  intro s t h hload hex hwb
  obtain ⟨i, -, hi, -⟩ := cycleCompletes_cycle h
  have hstall := dataStall_eq_zero hex hwb fun hl => absurd hl (by rw [hload]; decide)
  have hread : ∀ r, r ∈ sources s.latches.ifId.inst →
      operandInDecode s r = readReg s.params.r0Hardwired s.regs r := fun r hr =>
    operandInDecode_unwritten fun hw heq => hwb hw (heq ▸ hr)
  rw [cycleCompletes_idEx_proceed h hi hstall]
  exact ⟨hread _, hread _⟩

/-- Settles O36: MEM of the store's cycle leaves the stored word at the address MEM of the next cycle
reads. -/
theorem loadAfterStoreReadsIt : Obligations.LoadAfterStoreReadsIt := by
  intro s t1 t2 hwf hwrite hread haddr h1 h2
  have hmemRead : t1.latches.exMem.memRead = true := by rw [cycleCompletes_exMem h1]; exact hread
  have haluResult : t1.latches.exMem.aluResult = s.latches.exMem.aluResult := by
    rw [cycleCompletes_exMem h1]; exact haddr
  rw [cycleCompletes_memWb h2, if_pos hmemRead, haluResult, cycleCompletes_dmem h1, if_pos hwrite]
  exact readWord_writeWord _ _ hwf

/-- Settles O60: IF spends the pending bubble, and ID leaves a control count of 1 or a data count of 1 or
2 less the one spent with the cancel. -/
theorem stallCountStaysAtMostOne : Obligations.StallCountStaysAtMostOne := by
  intro s t hhaz hle h
  obtain ⟨-, rfl⟩ | ⟨-, r, rfl⟩ | hc := step_trichotomy h
  · exact hle
  · exact hle
  · rw [default_bubbles hc hhaz hle]
    obtain hd | hd | hd := dataStall_default_cases hhaz (sources s.latches.ifId.inst)
    · rw [if_pos hd]
      split <;> decide
    · rw [hd, if_neg (by decide)]
      decide
    · rw [hd, if_neg (by decide)]
      decide

end Sys2Proof

/-! PROOFS. A load and the instruction just after it (spec/70_reset_and_hazards.md R243), and what keeps
the word in IF/ID the word of its address (spec/42_pipeline.md R133). -/

namespace Sys2Proof.Machine

/-! ### Load and use (R243) -/

section LoadUse
variable {s t1 t2 t3 : State}

/-- A load in ID/EX whose destination the word in IF/ID reads is a 2-bubble hazard. -/
theorem dataStall_loadUse (hhaz : s.params.haz = {}) (hctrl : s.latches.idEx.ctrl = Control.lwRow)
    (hrt : s.latches.idEx.rt ∈ sources s.latches.ifId.inst) :
    dataStall s (sources s.latches.ifId.inst) = 2#8 := by
  rw [dataStall, hhaz]
  exact dataHazard_two (.inr ⟨by rw [hctrl]; rfl, hrt⟩)

/-- The load's word, two cycles after its EX began: in MEM/WB, read at its ALU result. -/
theorem load_in_memWb (hctrl : s.latches.idEx.ctrl = Control.lwRow) (h1 : CycleCompletes s t1)
    (h2 : CycleCompletes t1 t2) :
    t2.latches.memWb =
      { regWrite := true, memToReg := true
        readData := readWord t1.dmem (latchedAluResult s.latches.idEx).toNat
        aluResult := latchedAluResult s.latches.idEx, reg := s.latches.idEx.rt } := by
  rw [cycleCompletes_memWb h2, cycleCompletes_exMem h1]
  simp [executeStage, hctrl, Control.lwRow, destination]

/-- WB of a load writes its destination with the word read. -/
theorem load_writes (hctrl : s.latches.idEx.ctrl = Control.lwRow) (h1 : CycleCompletes s t1)
    (h2 : CycleCompletes t1 t2) (h3 : CycleCompletes t2 t3) :
    t3.regs = writeReg s.params.r0Hardwired t2.regs s.latches.idEx.rt
      (readWord t1.dmem (latchedAluResult s.latches.idEx).toNat) := by
  rw [cycleCompletes_regs h3, regsInDecode, load_in_memWb hctrl h1 h2, cycleCompletes_params h2,
    cycleCompletes_params h1]
  rfl

/-- A bubble in ID/EX leaves no producer in any later latch. -/
theorem bubble_no_write {s t : State} (h : CycleCompletes s t)
    (hctrl : s.latches.idEx.ctrl = Control.nopRow) : t.latches.exMem.regWrite = false := by
  rw [cycleCompletes_exMem h]
  simp [executeStage, hctrl, Control.nopRow]

end LoadUse

/-! ### The word in IF/ID (R133, R134) -/

/-- A completed cycle leaves in IF/ID a bubble or the word it fetched. -/
theorem cycleCompletes_instFromMemory {s t : State} (h : CycleCompletes s t) :
    InstFromMemory t := by
  intro hinst
  by_cases hstall : dataStall s (sources s.latches.ifId.inst) = 0#8
  · by_cases hb : s.bubblesRemaining = 0#8
    · obtain ⟨hfetch, hifIdPc, -, -⟩ := cycleCompletes_fetched h hb hstall
      rw [cycleCompletes_imem h, cycleCompletes_params h, hifIdPc, BitVec.add_sub_cancel]
      exact hfetch
    · obtain ⟨hifId, -, -⟩ := cycleCompletes_bubble h hb hstall
      exact absurd (by rw [hifId]) hinst
  · obtain ⟨f, -, hifId, -, -, -⟩ := cycleCompletes_cancel h hstall
    exact absurd (by rw [hifId]) hinst

end Sys2Proof.Machine

namespace Sys2Proof

open Sys2Proof.Machine

/-- Settles O35: the load is two bubbles away, so the word returns after three cycles
(`cancelled_returns_two`), when the loaded word has reached its register and only bubbles are left in
flight. -/
theorem loadUseReadsTheLoadedWord : Obligations.LoadUseReadsTheLoadedWord := by
  intro s t1 t2 t3 hmem hhaz hle hctrl hrt h1 h2 h3 loaded
  have hstall := dataStall_loadUse hhaz hctrl hrt
  have hne : dataStall s (sources s.latches.ifId.inst) ≠ 0#8 := by rw [hstall]; decide
  obtain ⟨f, -, hifId1, -, -, -⟩ := cycleCompletes_cancel h1 hne
  have hinst1 : t1.latches.ifId.inst = 0#32 := by rw [hifId1]
  have hctrl1 := cycleCompletes_ctrl_cancel h1 hne
  obtain ⟨hinst2, hback⟩ := cancelled_returns_two hmem hhaz hle h1 h2 h3 hstall
  have hctrl2 := cycleCompletes_idEx_bubble h2 hinst1
  have hctrl3 := cycleCompletes_idEx_bubble h3 hinst2
  have hex : t3.latches.exMem.regWrite = false := bubble_no_write h3 hctrl2
  have hwb : t3.latches.memWb.regWrite = false := by
    rw [cycleCompletes_memWb h3]
    exact bubble_no_write h2 hctrl1
  have hstall3 : dataStall t3 (sources t3.latches.ifId.inst) = 0#8 :=
    dataStall_eq_zero (by simp [hex]) (by simp [hwb]) (by simp [hctrl3, Control.nopRow])
  have hregs := load_writes hctrl h1 h2 h3
  refine ⟨hctrl1, hinst1, hback, hstall3, hregs, ?_⟩
  intro t4 h4 value
  obtain ⟨i, -, hi, -⟩ := cycleCompletes_cycle h4
  have hr0 : t3.params.r0Hardwired = s.params.r0Hardwired := by
    rw [cycleCompletes_params h3, cycleCompletes_params h2, cycleCompletes_params h1]
  have hread : operandInDecode t3 s.latches.idEx.rt = value := by
    rw [operandInDecode_unwritten (by simp [hwb]), hregs, hr0]
    exact readReg_writeReg_same ..
  have hidEx := cycleCompletes_idEx_proceed h4 hi hstall3
  rw [hback] at hi hidEx
  rw [hidEx]
  exact ⟨controlUnit_of_decode_ok hi, rfl,
    fun hrs => (congrArg (operandInDecode t3) hrs).trans hread,
    fun hrt => (congrArg (operandInDecode t3) hrt).trans hread⟩

/-- Settles O59: a stopped core and a fault keep IF/ID; a completed cycle fetches into it. -/
theorem instStaysFromMemory : Obligations.InstStaysFromMemory := by
  intro s t hs h
  obtain ⟨-, rfl⟩ | ⟨-, r, rfl⟩ | hc := step_trichotomy h
  · exact hs
  · exact hs
  · exact cycleCompletes_instFromMemory hc

end Sys2Proof

/-! PROOFS. The invariant: every accepted launch has it, every step keeps it, and from it every run goes on
(spec/10_state.md R26, R35, R38, spec/20_memory.md R48, spec/42_pipeline.md R153, R154). -/

namespace Sys2Proof.Machine

/-! ### Control rows of latched words (R91) -/

theorem controlUnit_eq_some {w : Word} {c : Control} (h : controlUnit w = some c) :
    ∃ i, decode w = .ok i ∧ c = Control.ofInstr i := by
  cases hi : decode w with
  | error e =>
    rw [controlUnit_of_decode_error hi] at h
    cases h
  | ok i =>
    rw [controlUnit_of_decode_ok hi] at h
    exact ⟨i, rfl, (Option.some.inj h).symm⟩

/-- No control row asks for a read and a write. -/
theorem ofInstr_oneAccess (i : Instr) :
    ¬((Control.ofInstr i).memRead = true ∧ (Control.ofInstr i).memWrite = true) := by
  cases i <;> simp [Control.ofInstr, Control.rTypeRow, Control.lwRow, Control.swRow,
    Control.beqRow, Control.jRow, Control.nopRow]

/-- Only `nop` asks for no effect in any stage. -/
theorem eq_nop_of_no_effect {i : Instr} (hw : (Control.ofInstr i).regWrite = false)
    (hmw : (Control.ofInstr i).memWrite = false) (hb : (Control.ofInstr i).branch = false)
    (hj : (Control.ofInstr i).jump = false) : i = .nop := by
  cases i <;> simp_all [Control.ofInstr, Control.rTypeRow, Control.lwRow, Control.swRow,
    Control.beqRow, Control.jRow]

/-- What ID latches is the fields of a decodable word. -/
theorem latchedFromWord_latchIdEx {w : Word} {i : Instr} (hi : decode w = .ok i) (r0 : Bool)
    (regs : Registers) (pc : Word) :
    LatchedFromWord (latchIdEx r0 regs (Control.ofInstr i) w pc) :=
  ⟨w, controlUnit_of_decode_ok hi, rfl, rfl, rfl, rfl⟩

/-! ### The stall count (R35) -/

theorem largestCount_toNat (haz : HazardCounts) : (largestCount haz).toNat =
    max (max haz.exMem.toNat haz.memWb.toNat) (max haz.load.toNat haz.ctrl.toNat) := by
  simp only [largestCount, maxCount_toNat]

theorem dataHazard_le_largest (haz : HazardCounts) (srcs : List RegNum) (p : Latches) :
    (dataHazard haz srcs p).toNat ≤ (largestCount haz).toNat := by
  rw [dataHazard_toNat, largestCount_toNat]
  split <;> split <;> split <;> omega

theorem controlHazard_le_largest (haz : HazardCounts) (transfer : Bool) :
    (controlHazard haz transfer).toNat ≤ (largestCount haz).toNat := by
  rw [controlHazard, toNat_ite_count, largestCount_toNat]
  split <;> omega

theorem fetchStage_bubbles_le {s : State} {f : FetchOut} (h : fetchStage s = .ok f) :
    f.bubbles.toNat ≤ s.bubblesRemaining.toNat := by
  rw [fetchStage_bubbles h]
  split
  · simp
  · next hb => bv_omega

section Invariant
variable {s t : State}

/-- The stall count after a cycle is at most the largest of the table: of what IF left and the checks,
less one under a data stall, which is not 0. -/
theorem cycleCompletes_bubbles_bounded (h : CycleCompletes s t)
    (hs : s.bubblesRemaining ≤ largestCount s.params.haz) :
    t.bubblesRemaining ≤ largestCount t.params.haz := by
  have hctrl := controlHazard_le_largest s.params.haz (isTransfer s.latches.ifId.inst)
  rw [BitVec.le_def] at hs ⊢
  rw [cycleCompletes_params h]
  by_cases hstall : dataStall s (sources s.latches.ifId.inst) = 0#8
  · obtain ⟨f, hf, -, -, hbubbles, -⟩ := cycleCompletes_proceed h hstall
    have hle := fetchStage_bubbles_le hf
    rw [hbubbles, maxCount_toNat]
    omega
  · obtain ⟨f, hf, -, -, hbubbles, -⟩ := cycleCompletes_cancel h hstall
    have hle := fetchStage_bubbles_le hf
    have hdata : (dataStall s (sources s.latches.ifId.inst)).toNat
        ≤ (largestCount s.params.haz).toNat := dataHazard_le_largest ..
    have hpos : 0 < (dataStall s (sources s.latches.ifId.inst)).toNat :=
      Nat.pos_of_ne_zero fun h0 => hstall (BitVec.eq_of_toNat_eq h0)
    have hone : 1#8 ≤ maxCount
        (maxCount f.bubbles (dataStall s (sources s.latches.ifId.inst)))
        (controlHazard s.params.haz (isTransfer s.latches.ifId.inst)) := by
      rw [BitVec.le_def, maxCount_toNat, maxCount_toNat]
      simp only [BitVec.toNat_ofNat]
      omega
    rw [hbubbles, BitVec.toNat_sub_of_le hone, maxCount_toNat, maxCount_toNat]
    omega

/-! ### Alignment (R26, R104) -/

theorem redirect_aligned (hs : s.Inv) : (redirect s.pc s.latches.exMem).toNat % 4 = 0 := by
  unfold redirect
  split
  · exact hs.branchAddr_aligned
  · split
    · exact hs.jumpAddr_aligned
    · exact hs.pc_aligned

/-- The invariant rules out the undefined fetch (R48). -/
theorem fetchDefined_of_inv (hs : s.Inv) : FetchDefined s :=
  fun _ => ⟨redirect_aligned hs, hs.imem_words⟩

theorem fetchStage_aligned {f : FetchOut} (hs : s.Inv) (h : fetchStage s = .ok f) :
    f.pc.toNat % 4 = 0 ∧ f.ifId.pc.toNat % 4 = 0 := by
  obtain ⟨-, rfl⟩ | ⟨-, w, -, rfl⟩ := fetchStage_ok h
  · exact ⟨hs.pc_aligned, hs.pc_aligned⟩
  · exact ⟨add_four_aligned (redirect_aligned hs), add_four_aligned (redirect_aligned hs)⟩

/-- `pc` and the latched pcs after a cycle: what IF left, or the address of a cancelled word. -/
theorem cycleCompletes_aligned (hs : s.Inv) (h : CycleCompletes s t) :
    t.pc.toNat % 4 = 0 ∧ t.latches.ifId.pc.toNat % 4 = 0 ∧ t.latches.idEx.pc.toNat % 4 = 0 := by
  by_cases hstall : dataStall s (sources s.latches.ifId.inst) = 0#8
  · obtain ⟨f, hf, hifId, hpc, -, -⟩ := cycleCompletes_proceed h hstall
    obtain ⟨i, -, hi, -⟩ := cycleCompletes_cycle h
    obtain ⟨hfpc, hfifId⟩ := fetchStage_aligned hs hf
    rw [hpc, hifId, cycleCompletes_idEx_proceed h hi hstall]
    exact ⟨hfpc, hfifId, hs.ifId_pc_aligned⟩
  · obtain ⟨f, -, hifId, hpc, -, -⟩ := cycleCompletes_cancel h hstall
    have hback := sub_four_aligned hs.ifId_pc_aligned
    rw [hpc, hifId, cycleCompletes_idEx_cancel h hstall]
    exact ⟨hback, hback, hback⟩

/-! ### Data memory, ID/EX and the instruction count (R38, R49, R145) -/

theorem cycleCompletes_dmem_form (hs : s.Inv) (h : CycleCompletes s t) :
    Memory.wf t.dmem = true ∧ Memory.within t.dmem t.params.dmemSize = true := by
  obtain ⟨i, f, -, hc⟩ := cycleCompletes_cycle h
  rw [hc.dmem, hc.params]
  split
  · next hwrite =>
    exact ⟨writeWord_wf _ _ hs.dmem_wf,
      writeWord_within _ (hc.allowed (.inr hwrite)).2 hs.dmem_within⟩
  · exact ⟨hs.dmem_wf, hs.dmem_within⟩

theorem cycleCompletes_latchedFromWord (h : CycleCompletes s t) :
    LatchedFromWord t.latches.idEx := by
  by_cases hstall : dataStall s (sources s.latches.ifId.inst) = 0#8
  · obtain ⟨i, -, hi, -⟩ := cycleCompletes_cycle h
    rw [cycleCompletes_idEx_proceed h hi hstall]
    exact latchedFromWord_latchIdEx hi ..
  · rw [cycleCompletes_idEx_cancel h hstall]
    exact latchedFromWord_latchIdEx decode_zero ..

/-- A word that a cycle leaves in IF/ID was fetched and counted by it. -/
theorem cycleCompletes_inst_counted (h : CycleCompletes s t) (hinst : t.latches.ifId.inst ≠ 0#32) :
    0 < t.instructionCount := by
  by_cases hstall : dataStall s (sources s.latches.ifId.inst) = 0#8
  · obtain ⟨f, hf, hifId, -, -, hcount⟩ := cycleCompletes_proceed h hstall
    obtain ⟨-, rfl⟩ | ⟨-, w, -, rfl⟩ := fetchStage_ok hf
    · exact absurd (by rw [hifId]) hinst
    · rw [hcount]
      exact Nat.succ_pos _
  · obtain ⟨f, -, hifId, -, -, -⟩ := cycleCompletes_cancel h hstall
    exact absurd (by rw [hifId]) hinst

/-! ### The invariant -/

/-- A fault changes only the record and `running`, which the invariant ties together. -/
theorem inv_raise (hs : s.Inv) (r : FaultRecord) : (s.raise r).Inv :=
  { hs with running_iff := rfl }

theorem inv_cycleCompletes (hs : s.Inv) (h : CycleCompletes s t) : t.Inv := by
  obtain ⟨hlive, -⟩ := cycleCompletes_inv h
  obtain ⟨hpc, hifId, hidEx⟩ := cycleCompletes_aligned hs h
  obtain ⟨hwf, hwithin⟩ := cycleCompletes_dmem_form hs h
  obtain ⟨w, hctrl, -⟩ := hs.idEx_fromWord
  obtain ⟨i, -, hrow⟩ := controlUnit_eq_some hctrl
  obtain ⟨_, _, _, hc⟩ := cycleCompletes_cycle h
  exact
    { pc_aligned := hpc
      ifId_pc_aligned := hifId
      idEx_pc_aligned := hidEx
      branchAddr_aligned := by
        rw [hc.exMem]; exact branchAddr_aligned _ hs.idEx_pc_aligned
      jumpAddr_aligned := by rw [hc.exMem]; exact jumpAddr_aligned ..
      imem_words := by rw [hc.params]; exact hs.imem_words
      imem_wf := by rw [hc.imem]; exact hs.imem_wf
      imem_within := by rw [hc.imem, hc.params]; exact hs.imem_within
      dmem_wf := hwf
      dmem_within := hwithin
      idEx_fromWord := cycleCompletes_latchedFromWord h
      exMem_oneAccess := by
        rw [hc.exMem]
        simp only [executeStage, hrow]
        exact ofInstr_oneAccess i
      inst_counted := cycleCompletes_inst_counted h
      bubbles_bounded := cycleCompletes_bubbles_bounded h hs.bubbles_bounded
      running_iff := by simp [hc.running, hc.fault, hlive.2] }

theorem inv_step (hs : s.Inv) (h : step s = .next t) : t.Inv := by
  obtain ⟨-, rfl⟩ | ⟨-, r, rfl⟩ | hc := step_trichotomy h
  · exact hs
  · exact inv_raise hs r
  · exact inv_cycleCompletes hs hc

/-- A cycle whose fetch is defined answers a next state, a completed one or MEM's fault. -/
theorem exec_answers (i : Instr) (hfetch : FetchDefined s) : ∃ t, exec i s = .next t := by
  by_cases hallowed : AccessAllowed s
  · obtain ⟨f, t, ht, -⟩ := exec_cycle i hfetch hallowed
    exact ⟨t, ht⟩
  · obtain ⟨haccess, hbad⟩ := Classical.not_imp.1 hallowed
    cases hcheck : dataCheck s.params.dmemSize s.latches.exMem.aluResult with
    | none => exact absurd (dataCheck_none.1 hcheck) hbad
    | some r => exact ⟨_, exec_raises hfetch haccess hcheck⟩

/-- A state of the invariant has a next state, so neither stop of the model is reached. -/
theorem step_answers (hs : s.Inv) : ∃ t, step s = .next t := by
  by_cases hlive : s.Live
  · cases hi : decode s.latches.ifId.inst with
    | error e => exact ⟨_, step_of_decode_error hlive hi⟩
    | ok i =>
      rw [step_of_decode_ok hlive hi]
      exact exec_answers i (fetchDefined_of_inv hs)
  · exact ⟨s, if_neg hlive⟩

end Invariant

/-- The fresh state of buffers that fit has the invariant: its memories are the buffers, its latches
hold bubbles. -/
theorem inv_launched {a : LaunchArgs} {imem seed : List Byte} (hlen : imem.length % 4 = 0)
    (hseed : seed.length ≤ a.dmemSize) : (settleRunning (freshState a imem seed)).Inv where
  pc_aligned := rfl
  ifId_pc_aligned := rfl
  idEx_pc_aligned := rfl
  branchAddr_aligned := rfl
  jumpAddr_aligned := rfl
  imem_words := hlen
  imem_wf := memoryOfBytes_wf 0 imem
  imem_within := memoryOfBytes_within le_rfl
  dmem_wf := memoryOfBytes_wf 0 seed
  dmem_within := memoryOfBytes_within hseed
  idEx_fromWord := ⟨0#32, rfl, rfl, rfl, rfl, rfl⟩
  exMem_oneAccess := fun h => Bool.false_ne_true h.1
  inst_counted := fun h => absurd rfl h
  bubbles_bounded := Nat.zero_le _
  running_iff := rfl

theorem inv_launch {a : LaunchArgs} {s : State} (h : launch a = .next s) : s.Inv := by
  obtain ⟨imem, seed, -, -, hlen, hseed, rfl⟩ := launch_next h
  exact inv_launched hlen hseed

end Sys2Proof.Machine

namespace Sys2Proof

open Sys2Proof.Machine

/-- Settles O55: a stopped core stays as it is, a fault sets the record and `running` together
(`inv_raise`), and a completed cycle keeps each clause (`inv_cycleCompletes`). -/
theorem stepKeepsInvariant : Obligations.StepKeepsInvariant :=
  fun _ _ => inv_step

/-- Settles O57. -/
theorem launchHasInvariant : Obligations.LaunchHasInvariant := by
  intro a s h
  have hinv := inv_launch h
  obtain ⟨imem, seed, -, -, -, -, rfl⟩ := launch_next h
  exact ⟨hinv, rfl, fun hinst => absurd rfl hinst⟩

/-- Settles O56: the reset state is that of an accepted launch, with every default and no program. -/
theorem resetHasInvariant : Obligations.ResetHasInvariant :=
  inv_launch (a := { imem := .bytes [] }) rfl

/-- Settles O58, by induction on the number of steps: a state of the invariant has a next state
(`step_answers`), which has the invariant again (`inv_step`). -/
theorem runsNeverGetStuck : Obligations.RunsNeverGetStuck := by
  intro k
  induction k with
  | zero => exact fun s hs => ⟨s, rfl, hs⟩
  | succ k ih =>
    intro s hs
    obtain ⟨u, hu⟩ := step_answers hs
    obtain ⟨t, ht, hinv⟩ := ih u (inv_step hs hu)
    exact ⟨t, run_succ.2 ⟨u, hu, ht⟩, hinv⟩

end Sys2Proof

/-! PROOFS. The instructions in any context: what ID latches of them, what EX makes of it, and the stages
that follow (spec/43_alu_ops.md, spec/44_load_store.md, spec/46_nop.md, spec/42_pipeline.md R128 to
R150). -/

namespace Sys2Proof.Machine

/-! ### EX of a latched word (R95 to R99) -/

section Latched
variable (r0 : Bool) (regs : Registers) (pc : Word)

/-- The ALU code of a latched word is that of its row and its funct bits. -/
theorem latchedAluCode_latchIdEx (c : Control) (w : Word) :
    latchedAluCode (latchIdEx r0 regs c w pc) = aluControl c.aluOp (functField w) :=
  congrArg (aluControl c.aluOp) (funct_of_imm w)

/-- The ALU code of an R-format mnemonic. -/
def rCode : AluMnemonic → AluCode
  | .add => .add
  | .sub => .sub
  | .and => .and
  | .or => .or
  | .slt => .slt

theorem aluControl_rFunct (op : AluMnemonic) : aluControl 0b10#2 (rFunct op) = some (rCode op) := by
  cases op <;> rfl

theorem alu_rCode (op : AluMnemonic) (a b : Word) : alu (some (rCode op)) a b = rValue op a b := by
  cases op <;> rfl

theorem countAlu_rCode (op : AluMnemonic) (c : OpCounters) :
    countAlu c (some (rCode op)) = rCount op c := by
  cases op <;> rfl

theorem ofInstr_rInstr (op : AluMnemonic) (rd rs rt : RegNum) (shamt : BitVec 5) :
    Control.ofInstr (rInstr op rd rs rt shamt) = Control.rTypeRow := by
  cases op <;> rfl

variable (op : AluMnemonic) (rd rs rt : RegNum) (shamt : BitVec 5) (imm : BitVec 16)

/-- The ID/EX latch of an R-format instruction. -/
def rLatch : IdEx := latchIdEx r0 regs Control.rTypeRow (encode (rInstr op rd rs rt shamt)) pc

/-- The ID/EX latch of a `lw`. -/
def lwLatch : IdEx := latchIdEx r0 regs Control.lwRow (encode (.lw rt rs imm)) pc

/-- The ID/EX latch of a `sw`. -/
def swLatch : IdEx := latchIdEx r0 regs Control.swRow (encode (.sw rt rs imm)) pc

theorem latchedAluCode_r :
    latchedAluCode (rLatch r0 regs pc op rd rs rt shamt) = some (rCode op) := by
  rw [rLatch, latchedAluCode_latchIdEx, encode_rInstr, functField_rFormat]
  exact aluControl_rFunct op

/-- EX of an R-format instruction computes its value of the two operands, for `rd`. -/
theorem latchedAluResult_r : latchedAluResult (rLatch r0 regs pc op rd rs rt shamt)
    = rValue op (readReg r0 regs rs) (readReg r0 regs rt) := by
  rw [latchedAluResult, latchedAluCode_r, alu_rCode]
  simp [rLatch, latchIdEx, aluOperand2, Control.rTypeRow, encode_rInstr]

theorem destination_r : destination (rLatch r0 regs pc op rd rs rt shamt) = rd := by
  simp [rLatch, latchIdEx, destination, Control.rTypeRow, encode_rInstr]

/-- EX of a `lw` computes its effective address (R170). -/
theorem latchedAluResult_lw : latchedAluResult (lwLatch r0 regs pc rs rt imm)
    = effectiveAddress (readReg r0 regs rs) imm := by
  simp [latchedAluResult, latchedAluCode, lwLatch, latchIdEx, aluOperand2, Control.lwRow, encode,
    aluControl, alu, effectiveAddress]

/-- EX of a `sw` computes its effective address (R170). -/
theorem latchedAluResult_sw : latchedAluResult (swLatch r0 regs pc rs rt imm)
    = effectiveAddress (readReg r0 regs rs) imm := by
  simp [latchedAluResult, latchedAluCode, swLatch, latchIdEx, aluOperand2, Control.swRow, encode,
    aluControl, alu, effectiveAddress]

/-- What EX/MEM holds of an R-format instruction. -/
theorem executeStage_r :
    let l := executeStage (rLatch r0 regs pc op rd rs rt shamt)
    l.branch = false ∧ l.jump = false ∧ l.memRead = false ∧ l.memWrite = false ∧
      l.regWrite = true ∧ l.memToReg = false ∧ l.reg = rd ∧
      l.aluResult = rValue op (readReg r0 regs rs) (readReg r0 regs rt) :=
  ⟨rfl, rfl, rfl, rfl, rfl, rfl, destination_r r0 regs pc op rd rs rt shamt,
    latchedAluResult_r r0 regs pc op rd rs rt shamt⟩

/-- What EX/MEM holds of a `lw`. -/
theorem executeStage_lw :
    let l := executeStage (lwLatch r0 regs pc rs rt imm)
    l.branch = false ∧ l.jump = false ∧ l.memRead = true ∧ l.memWrite = false ∧
      l.regWrite = true ∧ l.memToReg = true ∧ l.reg = rt ∧
      l.aluResult = effectiveAddress (readReg r0 regs rs) imm :=
  ⟨rfl, rfl, rfl, rfl, rfl, rfl, rtField_iFormat .., latchedAluResult_lw ..⟩

/-- What EX/MEM holds of a `sw`. -/
theorem executeStage_sw :
    let l := executeStage (swLatch r0 regs pc rs rt imm)
    l.branch = false ∧ l.jump = false ∧ l.memRead = false ∧ l.memWrite = true ∧
      l.regWrite = false ∧ l.storeVal = readReg r0 regs rt ∧
      l.aluResult = effectiveAddress (readReg r0 regs rs) imm :=
  ⟨rfl, rfl, rfl, rfl, rfl, congrArg (readReg r0 regs) (rtField_iFormat ..),
    latchedAluResult_sw ..⟩

/-! ### The bubble (R190, R191) -/

/-- The latch of the word 0 has no ALU code: its row asks for the funct, which is 0. -/
theorem latchedAluCode_bubble :
    latchedAluCode (latchIdEx r0 regs Control.nopRow 0#32 pc) = none :=
  latchedAluCode_latchIdEx ..

end Latched

/-! ### From ID to WB -/

section Chain
variable {i i2 i3 i4 : Instr} {f f2 f3 f4 : FetchOut} {s t1 t2 t3 t4 : State}

/-- WB writes the register its latch carries. -/
theorem cycle_writes {l : MemWb} (h : Cycle i f s t1) (hl : s.latches.memWb = l)
    (hw : l.regWrite = true) :
    t1.regs = writeReg s.params.r0Hardwired s.regs l.reg (writeBackValue l) := by
  rw [h.regs, regsInDecode, hl, writeBack, if_pos hw]

theorem regsInDecode_of_no_write (hw : s.latches.memWb.regWrite = false) :
    regsInDecode s = s.regs := by
  rw [regsInDecode, writeBack, hw]
  rfl

variable {op : AluMnemonic} {rd rs rt : RegNum} {shamt : BitVec 5} {imm : BitVec 16}

/-- ID of an R-format instruction. -/
theorem cycle_rLatch (hstall : dataStall s [rs, rt] = 0#8)
    (h1 : Cycle (rInstr op rd rs rt shamt) f s t1) :
    t1.latches.idEx = rLatch s.params.r0Hardwired (regsInDecode s) s.latches.ifId.pc op rd rs rt
      shamt := by
  obtain ⟨hidEx, -⟩ := cycle_proceed h1 (by rwa [sourcesOf_rInstr])
  rwa [ofInstr_rInstr] at hidEx

/-- An R-format result goes from EX to WB and is written to `rd` (R160). -/
theorem rFormat_writes (hstall : dataStall s [rs, rt] = 0#8)
    (h1 : Cycle (rInstr op rd rs rt shamt) f s t1) (h2 : Cycle i2 f2 t1 t2) (h3 : Cycle i3 f3 t2 t3)
    (h4 : Cycle i4 f4 t3 t4) :
    t4.regs = writeReg s.params.r0Hardwired t3.regs rd
      (rValue op (operandInDecode s rs) (operandInDecode s rt)) := by
  obtain ⟨-, -, -, -, hw, hm, hreg, hres⟩ := executeStage_r s.params.r0Hardwired (regsInDecode s)
    s.latches.ifId.pc op rd rs rt shamt
  have hmemWb := h3.memWb
  rw [h2.exMem, cycle_rLatch hstall h1] at hmemWb
  rw [cycle_writes h4 hmemWb hw, h3.params, h2.params, h1.params, writeBackValue, hm, hreg, hres]
  rfl

/-- A loaded word goes from MEM to WB and is written to `rt` (R171). -/
theorem lw_writes (hstall : dataStall s [rs] = 0#8)
    (h1 : Cycle (.lw rt rs imm) f s t1) (h2 : Cycle i2 f2 t1 t2) (h3 : Cycle i3 f3 t2 t3)
    (h4 : Cycle i4 f4 t3 t4) :
    t3.dmem = t2.dmem ∧
    t4.regs = writeReg s.params.r0Hardwired t3.regs rt
      (readWord t2.dmem (effectiveAddress (operandInDecode s rs) imm).toNat) := by
  obtain ⟨-, -, hmr, hmw, hw, hm, hreg, hres⟩ := executeStage_lw s.params.r0Hardwired
    (regsInDecode s) s.latches.ifId.pc rs rt imm
  have hidEx : t1.latches.idEx = lwLatch s.params.r0Hardwired (regsInDecode s) s.latches.ifId.pc rs
    rt imm := (cycle_proceed h1 hstall).1
  have hmemWb := h3.memWb
  have hdmem := h3.dmem
  rw [h2.exMem, hidEx] at hmemWb hdmem
  rw [hmw] at hdmem
  rw [cycle_writes h4 hmemWb hw, h3.params, h2.params, h1.params, writeBackValue, hm, hreg, hres,
    hmr]
  exact ⟨hdmem, rfl⟩

/-- MEM of a `sw` stores the value ID read, and its WB writes no register (R172). -/
theorem sw_stores (hstall : dataStall s [rs, rt] = 0#8)
    (h1 : Cycle (.sw rt rs imm) f s t1) (h2 : Cycle i2 f2 t1 t2) (h3 : Cycle i3 f3 t2 t3) :
    t3.dmem = writeWord t2.dmem (effectiveAddress (operandInDecode s rs) imm).toNat
      (operandInDecode s rt) ∧
    t3.latches.memWb.regWrite = false := by
  obtain ⟨-, -, -, hmw, hw, hval, hres⟩ := executeStage_sw s.params.r0Hardwired
    (regsInDecode s) s.latches.ifId.pc rs rt imm
  have hidEx : t1.latches.idEx = swLatch s.params.r0Hardwired (regsInDecode s) s.latches.ifId.pc rs
    rt imm := (cycle_proceed h1 hstall).1
  rw [h3.dmem, h3.memWb, h2.exMem, hidEx, hmw, hval, hres]
  exact ⟨rfl, hw⟩

/-- A completed cycle with an encoded instruction in IF/ID is its cycle. -/
theorem cycleCompletes_encode (hword : s.latches.ifId.inst = encode i) (h : CycleCompletes s t1) :
    ∃ f, Cycle i f s t1 := by
  obtain ⟨k, f, hk, hc⟩ := cycleCompletes_cycle h
  rw [hword, decode_encode] at hk
  cases hk
  exact ⟨f, hc⟩

end Chain

/-! ### The shift-amount bits (R72) -/

/-- Stages that answer make the cycle complete. -/
theorem decodeCycle_of_stages {s : State} {f : FetchOut} {m : MemOut} (c : Control)
    (srcs : List RegNum) (tr : Bool) (w : Word) (hf : fetchStage s = .ok f)
    (hm : memStage s.params.dmemSize s.dmem (executeCount s.ops s.latches.idEx) s.latches.exMem
      = .ok m) :
    decodeCycle c srcs tr w s = .next (settleRunning (afterStages s (regsInDecode s)
      (decodeStage c srcs tr w s (regsInDecode s) f) m)) := by
  simp only [decodeCycle, hf, hm, regsInDecode]

/-- Two words that give ID the same register fields leave cycles that differ in the latched immediate
and target only. -/
theorem decodeCycle_same_registers {c : Control} {srcs : List RegNum} {tr : Bool} {w w' : Word}
    {s t : State} (hrs : rsField w' = rsField w) (hrt : rtField w' = rtField w)
    (hrd : rdField w' = rdField w) (h : decodeCycle c srcs tr w s = .next t) :
    ∃ t', decodeCycle c srcs tr w' s = .next t' ∧
      t' = { t with latches := { t.latches with idEx := { t.latches.idEx with
              imm := t'.latches.idEx.imm, addr := t'.latches.idEx.addr } } } ∧
      (t'.latches.idEx = t.latches.idEx ∨
        t.latches.idEx = latchIdEx s.params.r0Hardwired (regsInDecode s) c w s.latches.ifId.pc ∧
        t'.latches.idEx = latchIdEx s.params.r0Hardwired (regsInDecode s) c w'
          s.latches.ifId.pc) := by
  obtain ⟨f, hf, ⟨r, hm, rfl⟩ | ⟨m, hm, rfl⟩⟩ := decodeCycle_next h
  · exact ⟨s.raise r, by simp only [decodeCycle, hf, hm], rfl, .inl rfl⟩
  · refine ⟨_, decodeCycle_of_stages c srcs tr w' hf hm, ?_⟩
    by_cases hstall : dataStall s srcs = 0#8
    · rw [decodeStage_proceed (h := hstall), decodeStage_proceed (h := hstall)]
      refine ⟨?_, .inr ⟨rfl, rfl⟩⟩
      simp [settleRunning, afterStages, latchIdEx, hrs, hrt, hrd, halted, quiescent]
    · rw [decodeStage_cancel (h := hstall), decodeStage_cancel (h := hstall)]
      exact ⟨rfl, .inl rfl⟩

end Sys2Proof.Machine

namespace Sys2Proof

open Sys2Proof.Machine

/-- Settles O37: the cycle completes (`exec_cycle`) and its word proceeds (`cycle_proceed`). -/
theorem execCompletesInDecode : Obligations.ExecCompletesInDecode := by
  intro i s hfetch hallowed hstall
  obtain ⟨f, t, ht, hc⟩ := exec_cycle i hfetch hallowed
  obtain ⟨hidEx, -⟩ := cycle_proceed hc hstall
  exact ⟨t, ht, hc.fault, hc.cycleCount, hidEx⟩

/-- Settles O44: `nop` has no source, so no data stall cancels it, and no funct, so the ALU has no
code. -/
theorem nopDoesNothing : Obligations.NopDoesNothing := by
  intro s hfetch hallowed
  obtain ⟨f, t, ht, hc⟩ := exec_cycle .nop hfetch hallowed
  obtain ⟨hidEx, -, -, hbubbles, -⟩ := cycle_proceed hc (dataHazard_nil _ _)
  have hcode : latchedAluCode t.latches.idEx = none := by
    rw [hidEx]
    exact latchedAluCode_bubble ..
  have hresult : latchedAluResult t.latches.idEx = 0#32 := by
    rw [latchedAluResult, hcode]
    rfl
  refine ⟨t, ht, hidEx, ?_, hcode, hresult, (zeroFlag_iff _).2 hresult, fun c => ?_⟩
  · rw [hbubbles, fetchStage_bubbles hc.fetch]
    exact maxCount_zero_right _
  · rw [executeCount, hcode]
    rfl

/-- Settles O5: the two words differ in the shift-amount bits only, so ID gives both the same registers
(`decodeCycle_same_registers`), and EX reads their funct, which is the same. -/
theorem shamtTakesNoPart : Obligations.ShamtTakesNoPart := by
  intro op rd rs rt shamt s t h
  rw [exec_eq, ofInstr_rInstr, sourcesOf_rInstr, isTransfer_encode_eq, ofInstr_rInstr] at h ⊢
  obtain ⟨t', ht', hsame, hidEx⟩ := decodeCycle_same_registers
    (w' := encode (rInstr op rd rs rt 0#5)) (by simp [encode_rInstr]) (by simp [encode_rInstr])
    (by simp [encode_rInstr]) h
  refine ⟨t', ht', hsame, ?_⟩
  obtain heq | ⟨hl, hl'⟩ := hidEx
  · rw [heq]
    exact ⟨rfl, rfl, rfl⟩
  · have hr : t.latches.idEx = rLatch _ _ _ op rd rs rt shamt := hl
    have hr' : t'.latches.idEx = rLatch _ _ _ op rd rs rt 0#5 := hl'
    rw [hr, hr']
    exact ⟨by rw [latchedAluCode_r, latchedAluCode_r],
      by rw [latchedAluResult_r, latchedAluResult_r], by rw [destination_r, destination_r]⟩

/-- Settles O45: the result goes down the pipeline from EX to WB, whatever else is in flight. -/
theorem rFormatResultReachesItsRegister : Obligations.RFormatResultReachesItsRegister := by
  intro op rd rs rt shamt s t1 t2 t3 t4 hword hstall h1 h2 h3 h4
  obtain ⟨_, hc1⟩ := cycleCompletes_encode hword h1
  obtain ⟨_, _, -, hc2⟩ := cycleCompletes_cycle h2
  obtain ⟨_, _, -, hc3⟩ := cycleCompletes_cycle h3
  obtain ⟨_, _, -, hc4⟩ := cycleCompletes_cycle h4
  exact rFormat_writes hstall hc1 hc2 hc3 hc4

/-- Settles O46: the load reads in MEM and its word goes on to WB, whatever else is in flight. -/
theorem lwResultReachesItsRegister : Obligations.LwResultReachesItsRegister := by
  intro rt rs imm s t1 t2 t3 t4 hword hstall h1 h2 h3 h4
  obtain ⟨_, hc1⟩ := cycleCompletes_encode hword h1
  obtain ⟨_, _, -, hc2⟩ := cycleCompletes_cycle h2
  obtain ⟨_, _, -, hc3⟩ := cycleCompletes_cycle h3
  obtain ⟨_, _, -, hc4⟩ := cycleCompletes_cycle h4
  exact lw_writes hstall hc1 hc2 hc3 hc4

/-- Settles O47: the store writes in MEM and has nothing for WB, whatever else is in flight. -/
theorem swResultReachesMemory : Obligations.SwResultReachesMemory := by
  intro rt rs imm s t1 t2 t3 t4 hword hstall h1 h2 h3 h4
  obtain ⟨_, hc1⟩ := cycleCompletes_encode hword h1
  obtain ⟨_, _, -, hc2⟩ := cycleCompletes_cycle h2
  obtain ⟨_, _, -, hc3⟩ := cycleCompletes_cycle h3
  obtain ⟨hdmem, hnone⟩ := sw_stores hstall hc1 hc2 hc3
  exact ⟨hdmem, (cycleCompletes_regs h4).trans (regsInDecode_of_no_write hnone)⟩

end Sys2Proof

/-! PROOFS. Cycles past the end of the program: a core that has drained (spec/42_pipeline.md R154), and an
instruction alone in the pipeline (spec/43_alu_ops.md R160, spec/44_load_store.md R170 to R172). -/

namespace Sys2Proof.Machine

/-! ### Bubbles in the latches (R191) -/

/-- ID/EX holds a bubble: the nop row, and no funct for the ALU. -/
def BubbleIdEx (e : IdEx) : Prop := e.ctrl = Control.nopRow ∧ e.imm = 0#32

/-- EX/MEM holds an instruction with no effect left. -/
def NoEffect (l : ExMem) : Prop :=
  l.branch = false ∧ l.jump = false ∧ l.memRead = false ∧ l.memWrite = false ∧ l.regWrite = false

theorem latchedAluCode_of_bubble {e : IdEx} (h : BubbleIdEx e) : latchedAluCode e = none := by
  rw [latchedAluCode, h.1, h.2]
  rfl

theorem noEffect_executeStage {e : IdEx} (h : BubbleIdEx e) : NoEffect (executeStage e) := by
  simp [NoEffect, executeStage, h.1, Control.nopRow]

theorem accessAllowed_of_noEffect {s : State} (h : NoEffect s.latches.exMem) : AccessAllowed s := by
  obtain ⟨-, -, hmr, hmw, -⟩ := h
  simp [AccessAllowed, hmr, hmw]

section Quiet
variable {i : Instr} {f : FetchOut} {s t : State}

theorem cycle_keeps_regs (h : Cycle i f s t) (hw : s.latches.memWb.regWrite = false) :
    t.regs = s.regs :=
  h.regs.trans (regsInDecode_of_no_write hw)

theorem cycle_keeps_dmem (h : Cycle i f s t) (hw : s.latches.exMem.memWrite = false) :
    t.dmem = s.dmem := by
  rw [h.dmem, hw]
  rfl

/-- With no access in MEM only EX counts. -/
theorem cycle_counts_alu (h : Cycle i f s t) (hr : s.latches.exMem.memRead = false)
    (hw : s.latches.exMem.memWrite = false) :
    t.ops = countAlu s.ops (latchedAluCode s.latches.idEx) := by
  rw [h.ops, hr, hw, countAlu_eq]
  rfl

/-- With a bubble in EX only the access in MEM counts. -/
theorem cycle_counts_access (h : Cycle i f s t) (hbubble : BubbleIdEx s.latches.idEx) :
    t.ops = { s.ops with
      memRead := s.ops.memRead + (if s.latches.exMem.memRead = true then 1 else 0)
      memWrite := s.ops.memWrite + (if s.latches.exMem.memWrite = true then 1 else 0) } := by
  rw [h.ops, latchedAluCode_of_bubble hbubble]
  rfl

/-- A cycle of `nop` leaves a bubble in ID/EX. -/
theorem cycle_nop_bubble (h : Cycle .nop f s t) : BubbleIdEx t.latches.idEx := by
  obtain ⟨hidEx, -⟩ := cycle_proceed h (dataHazard_nil _ _)
  rw [hidEx]
  exact ⟨rfl, rfl⟩

/-- After a completed cycle of a core with no fault, it runs on if the latches are not quiescent. -/
theorem live_of_not_quiescent (h : Cycle i f s t) (hfault : s.fault = none)
    (hq : quiescent t.latches ≠ true) : t.Live := by
  refine ⟨?_, h.fault.trans hfault⟩
  rw [h.running, Bool.not_eq_true', ← Bool.not_eq_true, halted_iff]
  exact fun hhalt => hq hhalt.2.2

theorem not_quiescent_of_idEx {l : Latches} (h : l.idEx.ctrl.regWrite = true ∨
    l.idEx.ctrl.memWrite = true ∨ l.idEx.ctrl.branch = true ∨ l.idEx.ctrl.jump = true) :
    quiescent l ≠ true := by
  rw [Ne, quiescent_iff]
  rintro ⟨-, ⟨hrw, -, hmw, hb, hj⟩, -, -⟩
  simp [hrw, hmw, hb, hj] at h

theorem not_quiescent_of_exMem {l : Latches} (h : l.exMem.regWrite = true ∨
    l.exMem.memWrite = true ∨ l.exMem.branch = true ∨ l.exMem.jump = true) :
    quiescent l ≠ true := by
  rw [Ne, quiescent_iff]
  rintro ⟨-, -, ⟨hrw, -, hmw, hb, hj⟩, -⟩
  simp [hrw, hmw, hb, hj] at h

theorem not_quiescent_of_memWb {l : Latches} (h : l.memWb.regWrite = true) :
    quiescent l ≠ true := by
  rw [Ne, quiescent_iff]
  rintro ⟨-, -, -, hrw⟩
  rw [hrw] at h
  cases h

/-- Bubbles everywhere are quiescent. -/
theorem quiescent_of_bubbles {l : Latches} (hinst : l.ifId.inst = 0#32) (hidEx : BubbleIdEx l.idEx)
    (hexMem : NoEffect l.exMem) (hmemWb : l.memWb.regWrite = false) : quiescent l = true := by
  obtain ⟨hb, hj, hmr, hmw, hrw⟩ := hexMem
  simp [quiescent_iff, hinst, hidEx.1, Control.nopRow, hb, hj, hmr, hmw, hrw, hmemWb]

end Quiet

/-! ### Fetching past the end (R47) -/

/-- IF fetches at `pc`, past the end of instruction memory. -/
structure PastEnd (s : State) : Prop where
  no_stall : s.bubblesRemaining = 0#8
  no_branch : s.latches.exMem.branch = false
  no_jump : s.latches.exMem.jump = false
  pc_aligned : s.pc.toNat % 4 = 0
  imem_words : s.params.imemLen % 4 = 0
  past_end : s.params.imemLen ≤ s.pc.toNat

/-- What IF leaves past the end: the word 0, counted. -/
def nopFetch (s : State) : FetchOut :=
  { ifId := { inst := 0#32, pc := s.pc + 4#32 }, pc := s.pc + 4#32, bubbles := 0#8,
    instructionCount := s.instructionCount + 1, fetched := 1 }

section PastEnd
variable {i : Instr} {s t : State}

theorem fetchDefined_of_pastEnd (h : PastEnd s) : FetchDefined s := by
  intro _
  rw [redirect_of_none h.no_branch h.no_jump]
  exact ⟨h.pc_aligned, h.imem_words⟩

theorem fetchStage_pastEnd (h : PastEnd s) : fetchStage s = .ok (nopFetch s) := by
  obtain ⟨f, hf⟩ := fetchStage_defined (fetchDefined_of_pastEnd h)
  obtain ⟨w, hw, rfl⟩ := fetchStage_fetched hf h.no_stall
  rw [redirect_of_none h.no_branch h.no_jump] at hw hf
  rw [fetchWord_past h.pc_aligned h.past_end] at hw
  cases hw
  exact hf

/-- Past the end the cycle of any instruction completes, if the older access is allowed. -/
theorem exec_pastEnd (i : Instr) (h : PastEnd s) (hallowed : AccessAllowed s) :
    ∃ t, exec i s = .next t ∧ Cycle i (nopFetch s) s t := by
  obtain ⟨f, t, ht, hc⟩ := exec_cycle i (fetchDefined_of_pastEnd h) hallowed
  obtain rfl : nopFetch s = f := Except.ok.inj ((fetchStage_pastEnd h).symm.trans hc.fetch)
  exact ⟨t, ht, hc⟩

theorem step_bubble (hlive : s.Live) (hinst : s.latches.ifId.inst = 0#32) : step s = exec .nop s :=
  step_of_decode_ok hlive (hinst ▸ decode_zero)

theorem step_pastEnd (h : PastEnd s) (hlive : s.Live) (hinst : s.latches.ifId.inst = 0#32)
    (hallowed : AccessAllowed s) : ∃ t, step s = .next t ∧ Cycle .nop (nopFetch s) s t := by
  rw [step_bubble hlive hinst]
  exact exec_pastEnd .nop h hallowed

/-- The front of the pipeline after a cycle past the end that leaves no stall. -/
theorem pastEnd_front (hc : Cycle i (nopFetch s) s t) (hstall : dataStall s (sourcesOf i) = 0#8)
    (htransfer : isTransfer (encode i) = false) :
    t.latches.ifId.inst = 0#32 ∧ t.pc = s.pc + 4#32 ∧ t.bubblesRemaining = 0#8 ∧
      t.instructionCount = s.instructionCount + 1 := by
  obtain ⟨-, hifId, hpc, hbubbles, hcount⟩ := cycle_proceed hc hstall
  rw [htransfer] at hbubbles
  exact ⟨by rw [hifId]; rfl, hpc, hbubbles, hcount⟩

/-- The next fetch is past the end too, unless a redirect is coming or `pc` wraps. -/
theorem pastEnd_next (h : PastEnd s) (hc : Cycle i (nopFetch s) s t)
    (hstall : dataStall s (sourcesOf i) = 0#8) (htransfer : isTransfer (encode i) = false)
    (hbranch : s.latches.idEx.ctrl.branch = false) (hjump : s.latches.idEx.ctrl.jump = false)
    (hwrap : s.pc.toNat + 4 < 2 ^ 32) : PastEnd t := by
  obtain ⟨-, hpc, hbubbles, -⟩ := pastEnd_front hc hstall htransfer
  have hpcNat : t.pc.toNat = s.pc.toNat + 4 := by
    rw [hpc]
    exact BitVec.toNat_add_of_lt hwrap
  exact
    { no_stall := hbubbles
      no_branch := by rw [hc.exMem]; exact hbranch
      no_jump := by rw [hc.exMem]; exact hjump
      pc_aligned := by rw [hpc]; exact add_four_aligned h.pc_aligned
      imem_words := by rw [hc.params]; exact h.imem_words
      past_end := by rw [hc.params, hpcNat]; exact Nat.le_add_right_of_le h.past_end }

end PastEnd

/-! ### A halted core (R154) -/

section Halted
variable {s : State}

theorem pastEnd_of_halted (hs : s.Inv) (h : halted s = true) : PastEnd s := by
  obtain ⟨hpc, hb, hq⟩ := (halted_iff s).1 h
  obtain ⟨-, -, ⟨-, -, -, hbranch, hjump⟩, -⟩ := (quiescent_iff _).1 hq
  exact ⟨hb, hbranch, hjump, hs.pc_aligned, hs.imem_words, hpc⟩

/-- A latched word with no effect is the word 0. -/
theorem bubbleIdEx_of_quiescent (hs : LatchedFromWord s.latches.idEx)
    (hq : quiescent s.latches = true) : BubbleIdEx s.latches.idEx := by
  obtain ⟨w, hw, -, -, himm, -⟩ := hs
  obtain ⟨i, hi, hctrl⟩ := controlUnit_eq_some hw
  obtain ⟨-, ⟨hrw, -, hmw, hb, hj⟩, -, -⟩ := (quiescent_iff _).1 hq
  rw [hctrl] at hrw hmw hb hj
  obtain rfl := eq_nop_of_no_effect hrw hmw hb hj
  have hzero : w = 0#32 := (encode_of_decode_ok hi).symm
  exact ⟨hctrl, by rw [himm, hzero]; rfl⟩

end Halted

end Sys2Proof.Machine

namespace Sys2Proof

open Sys2Proof.Machine

/-- Settles O52: a halted core holds only bubbles, so its cycle counts and writes nothing, and leaves
bubbles again with `pc` still past the end. -/
theorem haltedCycleChangesNothing : Obligations.HaltedCycleChangesNothing := by
  intro s hs hhalted hwrap
  obtain ⟨-, -, hq⟩ := (halted_iff s).1 hhalted
  obtain ⟨-, ⟨-, -, -, hbranch, hjump⟩, ⟨hrw, hmr, hmw, hb, hj⟩, hwb⟩ := (quiescent_iff _).1 hq
  have hpast := pastEnd_of_halted hs hhalted
  have hbubble := bubbleIdEx_of_quiescent hs.idEx_fromWord hq
  obtain ⟨t, ht, hc⟩ := exec_pastEnd .nop hpast
    (accessAllowed_of_noEffect ⟨hb, hj, hmr, hmw, hrw⟩)
  obtain ⟨hinst, hpc, hbubbles, hcount⟩ := pastEnd_front hc (dataHazard_nil _ _) rfl
  have hpast' := pastEnd_next hpast hc (dataHazard_nil _ _) rfl hbranch hjump hwrap
  have hexMem : NoEffect t.latches.exMem := by
    rw [hc.exMem]
    exact noEffect_executeStage hbubble
  have hmemWb : t.latches.memWb.regWrite = false := by
    rw [hc.memWb]
    exact hrw
  have hops : t.ops = s.ops := by
    rw [cycle_counts_alu hc hmr hmw, latchedAluCode_of_bubble hbubble]
    rfl
  have hquiet := quiescent_of_bubbles hinst (cycle_nop_bubble hc) hexMem hmemWb
  exact ⟨t, ht, (halted_iff t).2 ⟨hpast'.past_end, hbubbles, hquiet⟩, cycle_keeps_regs hc hwb,
    cycle_keeps_dmem hc hmw, hops, hpc, hc.cycleCount, hcount⟩

end Sys2Proof

/-! PROOFS. An instruction alone in the pipeline, from its ID to its end (spec/43_alu_ops.md R160,
spec/44_load_store.md R170 to R172, spec/45_branch_jump.md R180, R181). -/

namespace Sys2Proof.Machine

/-! ### The state around an instruction alone -/

/-- The ID/EX latch of an instruction alone: nothing older changes its operands. -/
def aloneLatch (i : Instr) (s : State) : IdEx :=
  latchIdEx s.params.r0Hardwired s.regs (Control.ofInstr i) (encode i) s.latches.ifId.pc

section Alone
variable {s : State}

theorem alone_bubble (h : Alone s) : BubbleIdEx s.latches.idEx := h.idEx_bubble

theorem alone_no_stall (h : Alone s) (srcs : List RegNum) : dataStall s srcs = 0#8 := by
  obtain ⟨-, -, -, -, hrw⟩ := h.exMem_bubble
  exact dataStall_eq_zero (by simp [hrw]) (by simp [h.memWb_bubble])
    (by simp [h.idEx_bubble.1, Control.nopRow])

theorem alone_pastEnd (h : Alone s) : PastEnd s := by
  obtain ⟨hb, hj, -⟩ := h.exMem_bubble
  exact ⟨h.no_stall, hb, hj, h.pc_aligned, h.imem_words, h.past_end⟩

theorem alone_operand (h : Alone s) (r : RegNum) :
    operandInDecode s r = readReg s.params.r0Hardwired s.regs r :=
  operandInDecode_unwritten (by simp [h.memWb_bubble])

/-- ID of an instruction alone. -/
theorem alone_exec (h : Alone s) (i : Instr) :
    ∃ t, exec i s = .next t ∧ Cycle i (nopFetch s) s t ∧ t.latches.idEx = aloneLatch i s ∧
      t.regs = s.regs ∧ t.dmem = s.dmem ∧ t.ops = s.ops ∧ NoEffect t.latches.exMem ∧
      t.latches.memWb.regWrite = false := by
  obtain ⟨-, -, hmr, hmw, hrw⟩ := h.exMem_bubble
  obtain ⟨t, ht, hc⟩ := exec_pastEnd i (alone_pastEnd h) (accessAllowed_of_noEffect h.exMem_bubble)
  obtain ⟨hidEx, -⟩ := cycle_proceed hc (alone_no_stall h _)
  rw [regsInDecode_of_no_write h.memWb_bubble] at hidEx
  refine ⟨t, ht, hc, hidEx, cycle_keeps_regs hc h.memWb_bubble, cycle_keeps_dmem hc hmw, ?_, ?_, ?_⟩
  · rw [cycle_counts_alu hc hmr hmw, latchedAluCode_of_bubble h.idEx_bubble]
    rfl
  · rw [hc.exMem]
    exact noEffect_executeStage h.idEx_bubble
  · rw [hc.memWb]
    exact hrw

end Alone

/-- `k` cycles after `s`, still fetching past the end: what every cycle of an instruction alone does to
the front of the pipeline, and the frame. -/
structure Trailing (k : Nat) (s t : State) : Prop where
  past : PastEnd t
  pc : t.pc = s.pc + BitVec.ofNat 32 (4 * k)
  cycleCount : t.cycleCount = s.cycleCount + k
  instructionCount : t.instructionCount = s.instructionCount + k
  params : t.params = s.params
  imem : t.imem = s.imem
  fault : t.fault = none

section Trailing
variable {i : Instr} {k : Nat} {s t u : State}

theorem trailing_zero (h : Alone s) : Trailing 0 s s :=
  ⟨alone_pastEnd h, (BitVec.add_zero s.pc).symm, rfl, rfl, rfl, rfl, h.live.2⟩

/-- One more cycle of a word that is neither stalled nor a transfer, with no redirect coming. -/
theorem trailing_succ (hs : Alone s) (hk : k < 4) (h : Trailing k s t)
    (hc : Cycle i (nopFetch t) t u) (hstall : dataStall t (sourcesOf i) = 0#8)
    (htransfer : isTransfer (encode i) = false) (hbranch : t.latches.idEx.ctrl.branch = false)
    (hjump : t.latches.idEx.ctrl.jump = false) :
    Trailing (k + 1) s u ∧ u.latches.ifId.inst = 0#32 := by
  obtain ⟨hinst, hpc, -, hcount⟩ := pastEnd_front hc hstall htransfer
  have hnowrap := hs.no_wrap
  have hwrap : t.pc.toNat + 4 < 2 ^ 32 := by
    rw [h.pc, BitVec.toNat_add, BitVec.toNat_ofNat]
    omega
  refine ⟨⟨pastEnd_next h.past hc hstall htransfer hbranch hjump hwrap, ?_, ?_, ?_,
    hc.params.trans h.params, hc.imem.trans h.imem, hc.fault.trans h.fault⟩, hinst⟩
  · rw [hpc, h.pc, Nat.mul_succ, BitVec.ofNat_add, BitVec.add_assoc]
  · rw [hc.cycleCount, h.cycleCount]
    rfl
  · rw [hcount, h.instructionCount]
    rfl

/-- `trailing_succ` for the cycle of a bubble behind another. -/
theorem trailing_bubble (hs : Alone s) (hk : k < 4) (h : Trailing k s t)
    (hc : Cycle .nop (nopFetch t) t u) (hbubble : BubbleIdEx t.latches.idEx) :
    Trailing (k + 1) s u ∧ u.latches.ifId.inst = 0#32 :=
  trailing_succ hs hk h hc (dataHazard_nil _ _) rfl (by rw [hbubble.1]; rfl)
    (by rw [hbubble.1]; rfl)

end Trailing

/-! ### From EX to WB -/

/-- The instruction alone stands in EX/MEM after its second cycle: nothing is committed but the count of
its ALU operation. -/
structure InMem (i : Instr) (s t : State) : Prop where
  trailing : Trailing 2 s t
  inst : t.latches.ifId.inst = 0#32
  live : t.Live
  idEx : BubbleIdEx t.latches.idEx
  exMem : t.latches.exMem = executeStage (aloneLatch i s)
  memWb : t.latches.memWb.regWrite = false
  regs : t.regs = s.regs
  dmem : t.dmem = s.dmem
  ops : t.ops = countAlu s.ops (latchedAluCode (aloneLatch i s))

/-- The instruction alone stands in MEM/WB after its third cycle, which made its access. -/
structure InWb (i : Instr) (s t : State) : Prop where
  trailing : Trailing 3 s t
  inst : t.latches.ifId.inst = 0#32
  running : t.running = !halted t
  idEx : BubbleIdEx t.latches.idEx
  exMem : NoEffect t.latches.exMem
  memWb : t.latches.memWb.regWrite = (Control.ofInstr i).regWrite
  regs : t.regs = s.regs
  ops : t.ops = { countAlu s.ops (latchedAluCode (aloneLatch i s)) with
    memRead := s.ops.memRead + (if (Control.ofInstr i).memRead = true then 1 else 0)
    memWrite := s.ops.memWrite + (if (Control.ofInstr i).memWrite = true then 1 else 0) }

section Run
variable {i : Instr} {s t u : State}

/-- ID and EX of an instruction alone that is no transfer and has an effect to come. -/
theorem alone_inMem (hs : Alone s) (hb : (Control.ofInstr i).branch = false)
    (hj : (Control.ofInstr i).jump = false)
    (heffect : (Control.ofInstr i).regWrite = true ∨ (Control.ofInstr i).memWrite = true) :
    ∃ t u, exec i s = .next t ∧ step t = .next u ∧ Cycle i (nopFetch s) s t ∧
      Cycle .nop (nopFetch t) t u ∧ InMem i s u := by
  obtain ⟨t, ht, hc1, hidEx, hregs, hdmem, hops, hquiet, hwb⟩ := alone_exec hs i
  have htransfer : isTransfer (encode i) = false := by rw [isTransfer_encode_eq, hb, hj]; rfl
  have hbubble := alone_bubble hs
  obtain ⟨htrail, hinst⟩ := trailing_succ hs (by omega) (trailing_zero hs) hc1
    (alone_no_stall hs _) htransfer (by rw [hbubble.1]; rfl) (by rw [hbubble.1]; rfl)
  have hlive : t.Live := by
    refine live_of_not_quiescent hc1 hs.live.2 (not_quiescent_of_idEx ?_)
    rw [hidEx]
    exact heffect.elim .inl fun h => .inr (.inl h)
  obtain ⟨u, hu, hc2⟩ := step_pastEnd htrail.past hlive hinst (accessAllowed_of_noEffect hquiet)
  obtain ⟨htrail2, hinst2⟩ := trailing_succ hs (by omega) htrail hc2 (dataHazard_nil _ _) rfl
    (by rw [hidEx]; exact hb) (by rw [hidEx]; exact hj)
  obtain ⟨-, -, hmr, hmw, hrw⟩ := hquiet
  have hexMem : u.latches.exMem = executeStage (aloneLatch i s) := by rw [hc2.exMem, hidEx]
  refine ⟨t, u, ht, hu, hc1, hc2, htrail2, hinst2, ?_, cycle_nop_bubble hc2, hexMem, ?_,
    (cycle_keeps_regs hc2 hwb).trans hregs, (cycle_keeps_dmem hc2 hmw).trans hdmem, ?_⟩
  · refine live_of_not_quiescent hc2 htrail.fault (not_quiescent_of_exMem ?_)
    rw [hexMem]
    exact heffect.elim .inl fun h => .inr (.inl h)
  · rw [hc2.memWb]
    exact hrw
  · rw [cycle_counts_alu hc2 hmr hmw, hidEx, hops]

/-- MEM of an instruction alone whose access is allowed. -/
theorem alone_inWb (hs : Alone s) (h : InMem i s t) (hallowed : AccessAllowed t) :
    ∃ u, step t = .next u ∧ Cycle .nop (nopFetch t) t u ∧ InWb i s u := by
  obtain ⟨u, hu, hc⟩ := step_pastEnd h.trailing.past h.live h.inst hallowed
  obtain ⟨htrail, hinst⟩ := trailing_bubble hs (by omega) h.trailing hc h.idEx
  refine ⟨u, hu, hc, htrail, hinst, hc.running, cycle_nop_bubble hc, ?_, ?_,
    (cycle_keeps_regs hc h.memWb).trans h.regs, ?_⟩
  · rw [hc.exMem]
    exact noEffect_executeStage h.idEx
  · rw [hc.memWb, h.exMem]
    rfl
  · rw [cycle_counts_access hc h.idEx, h.exMem, h.ops, countAlu_eq]
    rfl

/-- WB of an instruction alone that writes a register: the last cycle of the core. -/
theorem alone_ends (hs : Alone s) (h : InWb i s t) (hw : (Control.ofInstr i).regWrite = true) :
    ∃ u, step t = .next u ∧ Cycle .nop (nopFetch t) t u ∧ Trailing 4 s u ∧ u.dmem = t.dmem ∧
      u.ops = t.ops ∧ u.running = false := by
  have hwb : t.latches.memWb.regWrite = true := h.memWb.trans hw
  have hlive : t.Live := by
    refine ⟨?_, h.trailing.fault⟩
    rw [h.running, Bool.not_eq_true', ← Bool.not_eq_true, halted_iff]
    exact fun hhalt => not_quiescent_of_memWb hwb hhalt.2.2
  obtain ⟨u, hu, hc⟩ := step_pastEnd h.trailing.past hlive h.inst
    (accessAllowed_of_noEffect h.exMem)
  obtain ⟨htrail, hinst⟩ := trailing_bubble hs (by omega) h.trailing hc h.idEx
  obtain ⟨-, -, hmr, hmw, hrw⟩ := h.exMem
  refine ⟨u, hu, hc, htrail, cycle_keeps_dmem hc hmw, ?_, ?_⟩
  · rw [cycle_counts_alu hc hmr hmw, latchedAluCode_of_bubble h.idEx]
    rfl
  · have hexMem : NoEffect u.latches.exMem := by
      rw [hc.exMem]
      exact noEffect_executeStage h.idEx
    have hmemWb : u.latches.memWb.regWrite = false := by
      rw [hc.memWb]
      exact hrw
    rw [hc.running, Bool.not_eq_false', halted_iff]
    exact ⟨htrail.past.past_end, htrail.past.no_stall,
      quiescent_of_bubbles hinst (cycle_nop_bubble hc) hexMem hmemWb⟩

/-- An instruction alone that writes no register has halted the core after its MEM. -/
theorem inWb_halted (h : InWb i s t) (hw : (Control.ofInstr i).regWrite = false) :
    t.running = false := by
  rw [h.running, Bool.not_eq_false', halted_iff]
  exact ⟨h.trailing.past.past_end, h.trailing.past.no_stall,
    quiescent_of_bubbles h.inst h.idEx h.exMem (h.memWb.trans hw)⟩

/-- The access of a load or store alone is at its effective address. -/
theorem accessAllowed_of_inMem {ea : Word} (h : InMem i s t)
    (hea : latchedAluResult (aloneLatch i s) = ea) (halign : ea.toNat % 4 = 0)
    (hbound : ea.toNat + 4 ≤ s.params.dmemSize) : AccessAllowed t := by
  intro _
  rw [h.exMem, h.trailing.params]
  simp only [executeStage, hea]
  exact ⟨halign, hbound⟩

theorem aloneLatch_r (op : AluMnemonic) (rd rs rt : RegNum) (shamt : BitVec 5) (s : State) :
    aloneLatch (rInstr op rd rs rt shamt) s =
      rLatch s.params.r0Hardwired s.regs s.latches.ifId.pc op rd rs rt shamt := by
  rw [aloneLatch, ofInstr_rInstr]
  rfl

theorem run_two {s t u : State} (h1 : step s = .next t) (h2 : step t = .next u) :
    Sys2Proof.core.run 2 s = .next u :=
  run_succ.2 ⟨t, h1, run_succ.2 ⟨u, h2, rfl⟩⟩

theorem run_three {s t u v : State} (h1 : step s = .next t) (h2 : step t = .next u)
    (h3 : step u = .next v) : Sys2Proof.core.run 3 s = .next v :=
  run_succ.2 ⟨t, h1, run_two h2 h3⟩

end Run

end Sys2Proof.Machine

namespace Sys2Proof

open Sys2Proof.Machine

/-- Settles O38: the four cycles of the instruction alone, the last of which writes the result
(`rFormat_writes`). -/
theorem rFormatAloneWritesItsResult : Obligations.RFormatAloneWritesItsResult := by
  intro op rd rs rt shamt s hs
  have hrow := ofInstr_rInstr op rd rs rt shamt
  obtain ⟨t, t2, ht, ht2, hc1, hc2, hmem⟩ := alone_inMem (i := rInstr op rd rs rt shamt) hs
    (by rw [hrow]; rfl) (by rw [hrow]; rfl) (by rw [hrow]; exact .inl rfl)
  obtain ⟨-, -, hmr, hmw, -, -, -, -⟩ := executeStage_r s.params.r0Hardwired s.regs
    s.latches.ifId.pc op rd rs rt shamt
  rw [← aloneLatch_r, ← hmem.exMem] at hmr hmw
  have hallowed : AccessAllowed t2 := by simp [AccessAllowed, hmr, hmw]
  obtain ⟨t3, ht3, hc3, hwb⟩ := alone_inWb hs hmem hallowed
  obtain ⟨u, hu, hc4, htrail, hdmem, hops, hstop⟩ := alone_ends hs hwb (by rw [hrow]; rfl)
  have hcode : latchedAluCode (aloneLatch (rInstr op rd rs rt shamt) s) = some (rCode op) := by
    rw [aloneLatch_r]
    exact latchedAluCode_r ..
  refine ⟨t, u, ht, run_three ht2 ht3 hu, ?_, ?_, ?_, htrail.imem, htrail.params, htrail.fault,
    htrail.past.no_stall, htrail.pc, htrail.cycleCount, htrail.instructionCount, hstop⟩
  · rw [rFormat_writes (alone_no_stall hs _) hc1 hc2 hc3 hc4, alone_operand hs, alone_operand hs,
      hwb.regs]
  · rw [hops, hwb.ops, hcode, hrow, ← countAlu_rCode, countAlu_eq]
    rfl
  · rw [hdmem, cycle_keeps_dmem hc3 hmw, hmem.dmem]

/-- Settles O39: the four cycles of the load alone, the third of which reads and the last of which writes
(`lw_writes`). -/
theorem lwAloneLoadsTheWord : Obligations.LwAloneLoadsTheWord := by
  intro rt rs imm s hs ea halign hbound
  obtain ⟨t, t2, ht, ht2, hc1, hc2, hmem⟩ := alone_inMem (i := .lw rt rs imm) hs rfl rfl (.inl rfl)
  have hea : latchedAluResult (aloneLatch (.lw rt rs imm) s) = ea := latchedAluResult_lw ..
  obtain ⟨t3, ht3, hc3, hwb⟩ := alone_inWb hs hmem (accessAllowed_of_inMem hmem hea halign hbound)
  obtain ⟨u, hu, hc4, htrail, hdmem, hops, hstop⟩ := alone_ends hs hwb rfl
  obtain ⟨hdmem3, hregs⟩ := lw_writes (alone_no_stall hs _) hc1 hc2 hc3 hc4
  refine ⟨t, u, ht, run_three ht2 ht3 hu, ?_, ?_, ?_, htrail.imem, htrail.params, htrail.fault,
    htrail.past.no_stall, htrail.pc, htrail.cycleCount, htrail.instructionCount, hstop⟩
  · rw [hregs, alone_operand hs, hwb.regs, hmem.dmem]
  · rw [hops, hwb.ops]
    rfl
  · rw [hdmem, hdmem3, hmem.dmem]

/-- Settles O40: the three cycles of the store alone, the last of which writes the word (`sw_stores`),
and then nothing is left in flight. -/
theorem swAloneStoresTheWord : Obligations.SwAloneStoresTheWord := by
  intro rt rs imm s hs hwf ea halign hbound
  obtain ⟨t, t2, ht, ht2, hc1, hc2, hmem⟩ := alone_inMem (i := .sw rt rs imm) hs rfl rfl (.inr rfl)
  have hea : latchedAluResult (aloneLatch (.sw rt rs imm) s) = ea := latchedAluResult_sw ..
  obtain ⟨u, hu, hc3, hwb⟩ := alone_inWb hs hmem (accessAllowed_of_inMem hmem hea halign hbound)
  obtain ⟨hdmem, -⟩ := sw_stores (alone_no_stall hs _) hc1 hc2 hc3
  rw [alone_operand hs, alone_operand hs, hmem.dmem] at hdmem
  have htrail := hwb.trailing
  refine ⟨t, u, ht, run_two ht2 hu, fun x => ?_, hwb.regs, ?_, htrail.imem, htrail.params,
    htrail.fault, htrail.past.no_stall, htrail.pc, htrail.cycleCount, htrail.instructionCount,
    inWb_halted hwb rfl⟩
  · rw [hdmem]
    exact readByte_writeWord_offset _ _ x hwf
  · rw [hwb.ops]
    rfl

end Sys2Proof

/-! PROOFS. The ends of an instruction alone that are not in WB: the faults of a load or store
(spec/60_exceptions.md R202, R203) and the redirect of a transfer (spec/45_branch_jump.md R180, R181). -/

namespace Sys2Proof.Machine

/-! ### Faults (R52) -/

/-- The record of an access that fails the check, misaligned first. -/
theorem dataCheck_fails {size : Nat} {a : Word} (h : a.toNat % 4 ≠ 0 ∨ a.toNat + 4 > size) :
    dataCheck size a =
      some (if a.toNat % 4 ≠ 0 then .misalignedData a else .dataOutOfBounds a) := by
  by_cases hmis : a.toNat % 4 ≠ 0
  · rw [if_pos hmis]
    exact dataCheck_misaligned hmis
  · rw [if_neg hmis]
    exact dataCheck_outOfBounds (not_not.1 hmis) (h.resolve_left hmis)

/-- A load or store alone whose access fails the check raises it in its MEM cycle. -/
theorem alone_faults {i : Instr} {ea : Word} {s : State} (hs : Alone s)
    (hb : (Control.ofInstr i).branch = false) (hj : (Control.ofInstr i).jump = false)
    (heffect : (Control.ofInstr i).regWrite = true ∨ (Control.ofInstr i).memWrite = true)
    (haccess : (Control.ofInstr i).memRead = true ∨ (Control.ofInstr i).memWrite = true)
    (hea : latchedAluResult (aloneLatch i s) = ea)
    (hbad : ea.toNat % 4 ≠ 0 ∨ ea.toNat + 4 > s.params.dmemSize) :
    ∃ t v, exec i s = .next t ∧ Sys2Proof.core.run 1 t = .next v ∧
      v.fault = none ∧ v.running = true ∧ v.regs = s.regs ∧ v.dmem = s.dmem ∧
      step v = .next (v.raise
        (if ea.toNat % 4 ≠ 0 then .misalignedData ea else .dataOutOfBounds ea)) := by
  obtain ⟨t, v, ht, hv, -, -, hmem⟩ := alone_inMem hs hb hj heffect
  refine ⟨t, v, ht, run_succ.2 ⟨v, hv, rfl⟩, hmem.live.2, hmem.live.1, hmem.regs, hmem.dmem, ?_⟩
  rw [step_bubble hmem.live hmem.inst]
  refine exec_raises (fetchDefined_of_pastEnd hmem.trailing.past) ?_ ?_
  · rw [hmem.exMem]
    exact haccess
  · rw [hmem.exMem, hmem.trailing.params]
    simp only [executeStage, hea]
    exact dataCheck_fails hbad

/-! ### Redirects (R180, R181) -/

/-- A transfer alone under a control count of 1, in EX/MEM after its second cycle, with the fetch of the
third to come. -/
structure TransferInMem (i : Instr) (s t : State) : Prop where
  live : t.Live
  no_stall : t.bubblesRemaining = 0#8
  inst : t.latches.ifId.inst = 0#32
  idEx : BubbleIdEx t.latches.idEx
  exMem : t.latches.exMem = executeStage (aloneLatch i s)
  memWb : t.latches.memWb.regWrite = false
  pc : t.pc = s.pc + 4#32
  regs : t.regs = s.regs
  dmem : t.dmem = s.dmem
  ops : t.ops = countAlu s.ops (latchedAluCode (aloneLatch i s))
  params : t.params = s.params
  imem : t.imem = s.imem
  cycleCount : t.cycleCount = s.cycleCount + 2
  instructionCount : t.instructionCount = s.instructionCount + 1

section Transfer
variable {i : Instr} {s t : State}

/-- ID and EX of a transfer alone: its control stall injects one bubble. -/
theorem alone_transferInMem (hs : Alone s) (hctrl : s.params.haz.ctrl = 1#8)
    (htransfer : isTransfer (encode i) = true) :
    ∃ t u, exec i s = .next t ∧ step t = .next u ∧ t.bubblesRemaining = 1#8 ∧
      TransferInMem i s u := by
  obtain ⟨t, ht, hc1, hidEx, hregs, hdmem, hops, hquiet, hwb⟩ := alone_exec hs i
  obtain ⟨-, hifId, hpc, hbubbles, hcount⟩ := cycle_proceed hc1 (alone_no_stall hs _)
  have hb : t.bubblesRemaining = 1#8 := by
    rw [hbubbles, htransfer, controlHazard, if_pos rfl, hctrl]
    rfl
  have hinst : t.latches.ifId.inst = 0#32 := by rw [hifId]; rfl
  have heffect : (Control.ofInstr i).branch = true ∨ (Control.ofInstr i).jump = true := by
    rwa [isTransfer_encode_eq, Bool.or_eq_true] at htransfer
  have hlive : t.Live := by
    refine live_of_not_quiescent hc1 hs.live.2 (not_quiescent_of_idEx ?_)
    rw [hidEx]
    exact .inr (.inr heffect)
  have hfetch : FetchDefined t := fun h0 => absurd (hb.symm.trans h0) (by decide)
  obtain ⟨f, u, hu, hc2⟩ := exec_cycle .nop hfetch (accessAllowed_of_noEffect hquiet)
  rw [← step_bubble hlive hinst] at hu
  obtain rfl := fetchStage_bubble hc2.fetch (by rw [hb]; decide)
  obtain ⟨-, hifId2, hpc2, hbubbles2, hcount2⟩ := cycle_proceed hc2 (dataHazard_nil _ _)
  obtain ⟨-, -, hmr, hmw, hrw⟩ := hquiet
  have hexMem : u.latches.exMem = executeStage (aloneLatch i s) := by rw [hc2.exMem, hidEx]
  refine ⟨t, u, ht, hu, hb, ?_, ?_, by rw [hifId2], cycle_nop_bubble hc2, hexMem, ?_,
    hpc2.trans hpc, (cycle_keeps_regs hc2 hwb).trans hregs, (cycle_keeps_dmem hc2 hmw).trans hdmem,
    ?_, hc2.params.trans hc1.params, hc2.imem.trans hc1.imem, ?_, ?_⟩
  · refine live_of_not_quiescent hc2 (hc1.fault.trans hs.live.2) (not_quiescent_of_exMem ?_)
    rw [hexMem]
    exact .inr (.inr heffect)
  · rw [hbubbles2, hb]
    rfl
  · rw [hc2.memWb]
    exact hrw
  · rw [cycle_counts_alu hc2 hmr hmw, hidEx, hops]
  · rw [hc2.cycleCount, hc1.cycleCount]
  · rw [hcount2, hcount]
    rfl

/-- The third cycle of a transfer alone fetches at `next`, where its latch sends the fetch. -/
theorem alone_redirects {next : Word} {code : Option AluCode} (hs : Alone s)
    (hctrl : s.params.haz.ctrl = 1#8) (htransfer : isTransfer (encode i) = true)
    (hmr : (Control.ofInstr i).memRead = false) (hmw : (Control.ofInstr i).memWrite = false)
    (hnext : redirect (s.pc + 4#32) (executeStage (aloneLatch i s)) = next)
    (halign : next.toNat % 4 = 0) (hcode : latchedAluCode (aloneLatch i s) = code) :
    ∃ t u, exec i s = .next t ∧ Sys2Proof.core.run 2 t = .next u ∧
      t.bubblesRemaining = 1#8 ∧
      fetchWord s.imem s.params.imemLen next = .ok u.latches.ifId.inst ∧
      u.latches.ifId.pc = next + 4#32 ∧ u.pc = next + 4#32 ∧
      u.regs = s.regs ∧ u.dmem = s.dmem ∧ u.imem = s.imem ∧ u.params = s.params ∧
      u.ops = countAlu s.ops code ∧ u.fault = none ∧
      u.bubblesRemaining = 0#8 ∧ u.cycleCount = s.cycleCount + 3 ∧
      u.instructionCount = s.instructionCount + 2 := by
  obtain ⟨t, v, ht, hv, hb, h⟩ := alone_transferInMem hs hctrl htransfer
  rw [← h.pc, ← h.exMem] at hnext
  have hmr' : v.latches.exMem.memRead = false := by rw [h.exMem]; exact hmr
  have hmw' : v.latches.exMem.memWrite = false := by rw [h.exMem]; exact hmw
  have hfetch : FetchDefined v := fun _ => ⟨hnext ▸ halign, h.params ▸ hs.imem_words⟩
  obtain ⟨f, u, hu, hc⟩ := exec_cycle .nop hfetch (by simp [AccessAllowed, hmr', hmw'])
  rw [← step_bubble h.live h.inst] at hu
  obtain ⟨w, hw, rfl⟩ := fetchStage_fetched hc.fetch h.no_stall
  obtain ⟨-, hifId, hpc, hbubbles, hcount⟩ := cycle_proceed hc (dataHazard_nil _ _)
  rw [hnext] at hw hifId hpc
  rw [h.imem, h.params] at hw
  refine ⟨t, u, ht, run_two hv hu, hb, by rw [hw, hifId], by rw [hifId], hpc,
    (cycle_keeps_regs hc h.memWb).trans h.regs, (cycle_keeps_dmem hc hmw').trans h.dmem,
    hc.imem.trans h.imem, hc.params.trans h.params, ?_, hc.fault.trans h.live.2, hbubbles, ?_, ?_⟩
  · rw [cycle_counts_alu hc hmr' hmw', latchedAluCode_of_bubble h.idEx, h.ops, hcode]
    rfl
  · rw [hc.cycleCount, h.cycleCount]
  · rw [hcount, h.instructionCount]

/-- EX of a `beq` subtracts its operands (R180). -/
theorem latchedAluResult_beq (rs rt : RegNum) (imm : BitVec 16) (s : State) :
    latchedAluResult (aloneLatch (.beq rs rt imm) s) =
      readReg s.params.r0Hardwired s.regs rs - readReg s.params.r0Hardwired s.regs rt := by
  simp [latchedAluResult, latchedAluCode, aloneLatch, latchIdEx, aluOperand2, Control.ofInstr,
    Control.beqRow, encode, aluControl, alu]

/-- Where a `beq` sends the fetch: by whether its operands are equal (R132, R180). -/
theorem redirect_beq (rs rt : RegNum) (imm : BitVec 16) (s : State) (pc : Word) :
    redirect pc (executeStage (aloneLatch (.beq rs rt imm) s)) =
      if readReg s.params.r0Hardwired s.regs rs = readReg s.params.r0Hardwired s.regs rt then
        branchAddr s.latches.ifId.pc (sext16 imm) else pc := by
  have himm : (aloneLatch (.beq rs rt imm) s).imm = sext16 imm :=
    congrArg sext16 (imm16Field_iFormat ..)
  split
  · next heq =>
    have hcoming : redirectComing (aloneLatch (.beq rs rt imm) s) :=
      .inl ⟨rfl, by rw [latchedAluResult_beq, heq, BitVec.sub_self]⟩
    rw [redirect_executeStage_coming hcoming, redirectTarget,
      if_pos (hcoming.resolve_right Bool.false_ne_true), himm]
    rfl
  · next hne =>
    refine redirect_executeStage_none fun hcoming => hne ?_
    obtain ⟨-, hzero⟩ := hcoming.resolve_right Bool.false_ne_true
    rw [latchedAluResult_beq] at hzero
    exact (alu_sub_eq_zero _ _).1 hzero

/-- Where a `j` sends the fetch (R132, R181). -/
theorem redirect_j (n : BitVec 26) (s : State) (pc : Word) :
    redirect pc (executeStage (aloneLatch (.j n) s)) = jumpAddr s.latches.ifId.pc n := by
  rw [redirect_executeStage_coming (.inr rfl), redirectTarget,
    if_neg fun h => Bool.false_ne_true h.1]
  exact congrArg (jumpAddr _) (addr26Field_jFormat ..)

/-- The funct bits of a `j` are the low bits of its target (R95). -/
theorem functField_jFormat (op : BitVec 6) (n : BitVec 26) :
    functField (jFormat op n) = n.extractLsb' 0 6 := by
  unfold functField jFormat
  grind

end Transfer

end Sys2Proof.Machine

namespace Sys2Proof

open Sys2Proof.Machine

/-- Settles O41: the failed check of the access is the fault of the MEM cycle (`alone_faults`), and EX of
both instructions computes the effective address. -/
theorem loadAndStoreAloneFault : Obligations.LoadAndStoreAloneFault := by
  intro rt rs imm s i hs hi ea hbad
  obtain rfl | rfl := hi
  · exact alone_faults hs rfl rfl (.inl rfl) (.inl rfl) (latchedAluResult_lw ..) hbad
  · exact alone_faults hs rfl rfl (.inr rfl) (.inr rfl) (latchedAluResult_sw ..) hbad

/-- Settles O42: the third cycle fetches where the compared operands send it (`redirect_beq`); EX counts a
subtraction. -/
theorem beqAloneBranches : Obligations.BeqAloneBranches := by
  intro rs rt imm s hs hctrl halign taken next
  have hnext := redirect_beq rs rt imm s (s.pc + 4#32)
  refine alone_redirects (code := some .sub) hs hctrl (isTransfer_encode _) rfl rfl hnext ?_ rfl
  simp only [next]
  split
  · exact branchAddr_aligned _ halign
  · exact add_four_aligned hs.pc_aligned

/-- Settles O43: the third cycle fetches at the target (`redirect_j`); EX counts the operation the low
bits of the target name. -/
theorem jAloneJumps : Obligations.JAloneJumps := by
  intro n s hs hctrl target
  refine alone_redirects hs hctrl (isTransfer_encode _) rfl rfl (redirect_j n s _)
    (jumpAddr_aligned _ n) ?_
  exact (latchedAluCode_latchIdEx ..).trans (congrArg (aluControl _) (functField_jFormat ..))

end Sys2Proof

/-! PROOFS. The assembler reads what the disassembler prints (spec/30_encoding.md R79 to R84). -/

namespace Sys2Proof.Machine

/-! ### Statements in range (R79 to R82) -/

theorem regInRange_toNat (r : RegNum) : regInRange r.toNat = true := decide_eq_true r.isLt

theorem immInRange_toInt (v : BitVec 16) : immInRange v.toInt = true := by
  have hlo := BitVec.le_toInt v
  have hhi := BitVec.toInt_lt (x := v)
  simp only [immInRange, Bool.and_eq_true, decide_eq_true_eq]
  omega

theorem targetInRange_toNat (n : BitVec 26) : targetInRange n.toNat = true := by
  have hlt := n.isLt
  simp only [targetInRange, Bool.and_eq_true, decide_eq_true_eq]
  omega

/-- The operands of a disassembled statement are in range, and their fields are those of the
instruction. -/
theorem assemble_toSource (a : Word) (i : Instr) :
    assemble a (toSource i) = some (clearShamt i) := by
  cases i with
  | nop => rfl
  | add | sub | and | or | slt =>
    simp [assemble, toSource, SourceInstr.wellFormed, regInRange_toNat, translateSource, aluInstr,
      clearShamt]
  | lw | sw | beq =>
    simp [assemble, toSource, SourceInstr.wellFormed, regInRange_toNat, immInRange_toInt,
      translateSource, clearShamt]
  | j =>
    simp [assemble, toSource, SourceInstr.wellFormed, targetInRange_toNat, translateSource,
      clearShamt]

/-! ### Lines (R80 to R84) -/

section Lines
variable (labels : Labels)

/-- A line is read by its mnemonic and its operands. -/
theorem readSource_alu (op : AluMnemonic) (rd rs rt : Nat) :
    readSource labels (sourceText (.alu op rd rs rt)) = some (.alu op rd rs rt) := by
  obtain ⟨htake, hdrop⟩ := mnemonic_cut (m := aluName op) (by cases op <;> simp [aluName])
    (List.intercalate [',', ' '] [regText rd, regText rs, regText rt])
  simp only [readSource, sourceText, statementText, htake, hdrop,
    cutOperands_three (isOperand_regText rd) (isOperand_regText rs) (isOperand_regText rt)]
  cases op <;> simp [aluName, readAlu, readRegister_regText]

theorem readSource_mem (op : MemMnemonic) (rt : Nat) (imm : Int) (rs : Nat) :
    readSource labels (sourceText (.mem op rt imm rs)) = some (.mem op rt imm rs) := by
  obtain ⟨htake, hdrop⟩ := mnemonic_cut (m := memName op) (by cases op <;> simp [memName])
    (List.intercalate [',', ' '] [regText rt, intText imm ++ '(' :: regText rs ++ [')']])
  simp only [readSource, sourceText, statementText, htake, hdrop,
    cutOperands_two (isOperand_regText rt) (isOperand_address imm rs)]
  cases op <;> simp only [readMem, readRegister_regText, readAddress_text] <;> rfl

theorem readSource_beq (rs rt : Nat) (imm : Int) :
    readSource labels (sourceText (.beq rs rt imm)) = some (.beq rs rt imm) := by
  obtain ⟨htake, hdrop⟩ := mnemonic_cut (m := beqName) (by simp [beqName])
    (List.intercalate [',', ' '] [regText rs, regText rt, intText imm])
  simp only [readSource, sourceText, statementText, htake, hdrop,
    cutOperands_three (isOperand_regText rs) (isOperand_regText rt) (isOperand_intText imm)]
  simp only [readBranch, readRegister_regText, readInt_intText]
  rfl

theorem readSource_j (n : Int) : readSource labels (sourceText (.j n)) = some (.j n) := by
  obtain ⟨htake, hdrop⟩ := mnemonic_cut (m := jName) (by simp [jName])
    (List.intercalate [',', ' '] [intText n])
  simp only [readSource, sourceText, statementText, htake, hdrop,
    cutOperands_one (isOperand_intText n)]
  simp only [readJump, readInt_intText]
  rfl

/-- The text of a disassembled statement reads back as the statement. -/
theorem readSource_toSource (i : Instr) :
    readSource labels (sourceText (toSource i)) = some (toSource i) := by
  cases i with
  | add | sub | and | or | slt => exact readSource_alu ..
  | lw | sw => exact readSource_mem ..
  | beq => exact readSource_beq ..
  | j => exact readSource_j ..
  | nop => rfl

/-- A disassembled line assembles to the instruction's word, `shamt` cleared. -/
theorem assembleLine_toSource (a : Word) (i : Instr) :
    assembleLine labels a (sourceText (toSource i)) = some (encode (clearShamt i)) := by
  rw [assembleLine, readSource_toSource]
  exact congrArg (Option.map encode) (assemble_toSource a i)

end Lines

theorem decodeToText_of_decode_ok {w : Word} {i : Instr} (h : decode w = .ok i) :
    decodeToText w = .ok (sourceText (toSource i)) := by
  rw [decodeToText, h]

theorem decodeToText_of_decode_error {w : Word} {e : Rejection} (h : decode w = .error e) :
    decodeToText w = .error e := by
  rw [decodeToText, h]

end Sys2Proof.Machine

namespace Sys2Proof

open Sys2Proof.Machine

/-- Settles O6: the printed line reads back as its statement (`readSource_toSource`), whose operands are
in range (`assemble_toSource`); the spec's own lines are evaluated. -/
theorem assembleOfDisassemble : Obligations.AssembleOfDisassemble := by
  refine ⟨fun labels a w i h => ?_, assemble_toSource, fun w e => decodeToText_of_decode_error,
    ?_, ?_, ?_, ?_, ?_, ?_, ?_, ?_, ?_, ?_⟩
  · exact ⟨_, decodeToText_of_decode_ok h, assembleLine_toSource labels a i⟩
  all_goals decide

end Sys2Proof
